-- ==== Sys2Proof/Word.lean ====
section
/-! DEFINITION. The machine word and the two constants of a word width (00_scope R9, R10).

The spec reads every value of the machine as a signed integer and names no bit of any of them
(00_scope R13, 30_encoding R61), so a word (a cell, ACC, PC, a token's integer) is an `Int`; that it
lies in `Int_XLEN` is an invariant of the machine (Safety.lean), not a property of the type.
DESIGN CHOICE (log 1). -/

namespace Sys2Proof

/-- `2^XLEN`, the modulus of 00_scope R10. -/
def modulus (xlen : Nat) : Int := ((2 ^ xlen : Nat) : Int)

/-- `2^(XLEN-1)`, the bound of 00_scope R9. -/
def half (xlen : Nat) : Int := ((2 ^ (xlen - 1) : Nat) : Int)

end Sys2Proof
end

