-- ==== Sys2Proof/Config.lean ====
section
/-! DEFINITION. The parameters of a run (00_scope R5, R6, R8) and the two fixed constants.

The spec leaves N, XLEN, OVF and EXIT_FAIL open as parameters with a default. They are a record the
state carries and no step writes, so that a statement about every state is a statement about every
choice of them (log 2). -/

namespace Sys2Proof

/-- What ADD and SUB do when the exact result does not fit (00_scope R5, 42_arithmetic R108, R109). -/
inductive OvfMode where
  | wrap   -- the default: the result modulo 2^XLEN (R108)
  | fault  -- the checked mode: ArithmeticOverflow (R109)
deriving DecidableEq, Repr

/-- The open parameters of 00_scope R5. -/
structure Config where
  /-- `N` (MEM_SIZE): the number of Memory cells. -/
  n : Nat
  /-- `XLEN`: the width in bits of a cell, of ACC and of PC. -/
  xlen : Nat
  /-- `OVF`. -/
  ovf : OvfMode
  /-- `EXIT_FAIL`: the status after a fatal error. -/
  exitFail : Int
deriving DecidableEq, Repr

/-- The defaults of 00_scope R5: what "this hardware" means when nothing else is said. The widths and
the policies are the spec's own choices D1, D2, D13 (log 1, log 3, log 16). -/
def Config.default : Config := { n := 256, xlen := 32, ovf := .wrap, exitFail := 1 }

/-- The constraints of 00_scope R6, and EXIT_FAIL non-zero (R5). -/
abbrev Config.Wf (c : Config) : Prop :=
  1 ≤ c.n ∧ (c.n : Int) ≤ half c.xlen - 1 ∧ 11 ≤ c.xlen ∧ c.exitFail ≠ 0

/-- `RADIX`, fixed (00_scope R5). -/
def radix : Int := 100

/-- `SENTINEL`, fixed (00_scope R5). -/
def sentinel : Int := -1

end Sys2Proof
end

