-- ==== Sys2Proof/Machine/Numbers.lean ====
section
/-! DEFINITION. The number system (00_scope R9, R10) and the memory address validator (20_memory R44). -/

namespace Sys2Proof

/-- `fits(z)`: `z` is in `Int_XLEN` (00_scope R9, R10). -/
abbrev Fits (xlen : Nat) (z : Int) : Prop := -half xlen ≤ z ∧ z ≤ half xlen - 1

/-- `wrap(z)`: keep the low XLEN bits of `z` and read them as signed (00_scope R10). -/
def wrap (xlen : Nat) (z : Int) : Int :=
  if z % modulus xlen < half xlen then z % modulus xlen else z % modulus xlen - modulus xlen

/-- `valid(a) = (0 <= a) and (a < N)`, a signed comparison (20_memory R44, 40_cycle R90). -/
abbrev Valid (n : Nat) (a : Int) : Prop := 0 ≤ a ∧ a < (n : Int)

/-- The word whose low bits are the number `w`, as a cell of XLEN bits holds it (00_scope R10). Only
the host's interface uses bits; no instruction does (20_memory R42). -/
def wordOfBits (xlen w : Nat) : Int := wrap xlen (w : Int)

end Sys2Proof
end

