-- ==== Sys2Proof/Syntax.lean ====
section
/-! DEFINITION. The instructions: one constructor per row of spec/opcode_table.json (30_encoding R64). -/

namespace Sys2Proof

/-- The ten opcodes of 30_encoding R64. -/
inductive Opcode where
  | halt | add | sub | store | load | jump | jz | jp | input | output
deriving DecidableEq, Repr

/-- An instruction with its operand `k`: the absolute cell address or jump target (30_encoding R63). -/
inductive Instr where
  | halt (k : Nat)    -- 0: stop successfully; the operand is validated and ignored (R100)
  | add (k : Nat)     -- 1 (R106)
  | sub (k : Nat)     -- 2 (R107)
  | store (k : Nat)   -- 3 (R115)
  | load (k : Nat)    -- 4 (R116)
  | jump (k : Nat)    -- 5 (R121)
  | jz (k : Nat)      -- 6, JUMP-IF-ZERO (R122)
  | jp (k : Nat)      -- 7, JUMP-IF-POSITIVE (R123)
  | input (k : Nat)   -- 8 (R131)
  | output (k : Nat)  -- 9 (R134)
deriving DecidableEq, Repr

/-- The opcode of an instruction. -/
def Instr.opcode : Instr → Opcode
  | .halt _ => .halt
  | .add _ => .add
  | .sub _ => .sub
  | .store _ => .store
  | .load _ => .load
  | .jump _ => .jump
  | .jz _ => .jz
  | .jp _ => .jp
  | .input _ => .input
  | .output _ => .output

/-- The operand of an instruction. -/
def Instr.operand : Instr → Nat
  | .halt k => k
  | .add k => k
  | .sub k => k
  | .store k => k
  | .load k => k
  | .jump k => k
  | .jz k => k
  | .jp k => k
  | .input k => k
  | .output k => k

end Sys2Proof
end

