-- ==== Sys2Proof/WellFormed.lean ====
section
/-! DEFINITION. Which instructions a word can encode and the machine accepts. -/

namespace Sys2Proof

/-- The operand has two decimal digits (30_encoding R64, R69; 20_memory R46), and it is an address of
the machine's `n` cells (20_memory R44, 40_cycle R84). -/
abbrev WellFormed (n : Nat) (i : Instr) : Prop := i.operand < 100 ∧ i.operand < n

end Sys2Proof
end

