-- ==== Sys2Proof/Decode.lean ====
section
/-! DEFINITION. The instruction decoder, total on every word, and after it the encoder
(30_encoding R61, R64, R65, R69; 40_cycle R83 to R85). -/

namespace Sys2Proof

/-- The opcode map of 30_encoding R64. -/
def Opcode.code : Opcode → Int
  | .halt => 0
  | .add => 1
  | .sub => 2
  | .store => 3
  | .load => 4
  | .jump => 5
  | .jz => 6
  | .jp => 7
  | .input => 8
  | .output => 9

/-- Every opcode, in the table's order. -/
def Opcode.all : List Opcode :=
  [.halt, .add, .sub, .store, .load, .jump, .jz, .jp, .input, .output]

/-- The opcode a number selects, none for "other" (30_encoding R64, 40_cycle R85). -/
def Opcode.ofCode? (v : Int) : Option Opcode := Opcode.all.find? fun o => decide (o.code = v)

/-- The instruction of an opcode and an operand. -/
def Instr.make (o : Opcode) (k : Nat) : Instr :=
  match o with
  | .halt => .halt k
  | .add => .add k
  | .sub => .sub k
  | .store => .store k
  | .load => .load k
  | .jump => .jump k
  | .jz => .jz k
  | .jp => .jp k
  | .input => .input k
  | .output => .output k

/-- `opcode = tdiv(ir, 100)` (30_encoding R61, 40_cycle R83). -/
def opcodeField (ir : Int) : Int := Int.tdiv ir radix

/-- `operand = tmod(ir, 100)` (30_encoding R61, 40_cycle R83). -/
def operandField (ir : Int) : Int := Int.tmod ir radix

/-- Why a word is no instruction, with the value the fatal error reports (30_encoding R65). -/
inductive Reject where
  | invalidOperand (operand : Int)
  | invalidInstruction (opcode : Int)
deriving DecidableEq, Repr

/-- Steps 3 to 5 of the cycle up to the choice of the action: the operand is checked first, for every
word, then the opcode (40_cycle R83 to R85, 30_encoding R65). -/
def decode (n : Nat) (ir : Int) : Except Reject Instr :=
  if Valid n (operandField ir) then
    match Opcode.ofCode? (opcodeField ir) with
    | some o => .ok (Instr.make o (operandField ir).toNat)
    | none => .error (.invalidInstruction (opcodeField ir))
  else .error (.invalidOperand (operandField ir))

/-- `enc(opcode, k) = 100 * opcode + k` (30_encoding R69). -/
def encode (i : Instr) : Int := radix * i.opcode.code + (i.operand : Int)

/-- The instruction this decoder reads from the bits `w` of a cell, at the default parameters
(00_scope R5). `w` has no bit above `nbits`, so the cell is the number `w` whatever `nbits` is
(log 22). -/
def decodeTableWord (_nbits w : Nat) : Option Instr :=
  match decode Config.default.n (wordOfBits Config.default.xlen w) with
  | .ok i => some i
  | .error _ => none

end Sys2Proof
end

