-- ==== Sys2Proof/Machine/State.lean ====
section
/-! DEFINITION. All the state the spec gives the machine (10_state R20), as plain data, and its reset
(10_state R33, 70_reset R180). -/

namespace Sys2Proof.Machine

/-- Which of the source's two components is active, or that the machine has stopped (10_state R26). -/
inductive Phase where
  | load     -- the Loader is filling Memory
  | run      -- the Execution Engine is cycling
  | halted   -- HALT was executed: terminal
  | faulted  -- a fatal error was raised: terminal
deriving DecidableEq, Repr

/-- The fatal errors of 60_exceptions R150. -/
inductive FatalCode where
  | malformedInput      -- 1: a Loader step, INPUT (R151)
  | memoryOverflow      -- 2: a Loader step (R152)
  | invalidOperand      -- 3: cycle step 4 (R153)
  | pcOutOfBounds       -- 4: cycle step 1 (R154)
  | invalidInstruction  -- 5: cycle step 5 (R155)
  | arithmeticOverflow  -- 6: ADD, SUB, only with OVF = fault (R156)
deriving DecidableEq, Repr

/-- The pair (code, value) that `FAULT` records (10_state R27, 60_exceptions R150). -/
structure FatalError where
  code : FatalCode
  value : Int
deriving DecidableEq, Repr

/-- One transaction of the input port (00_scope R12). -/
inductive Token where
  | int (v : Int)  -- an integer token
  | bad             -- a non-integer token where an integer was expected
  | eos             -- the spec's `end`: the end of the stream
deriving DecidableEq, Repr

/-- Memory: the cells that differ from the reset value 0, by strictly rising address. An address that
is not listed reads as 0, its reset value (10_state R24, R33). The unit is the whole cell: the
hardware has no bytes (20_memory R42; log 13). -/
abbrev Memory := List (Nat × Int)

/-- The complete state of 10_state R20, with the parameters of the run beside it (00_scope R8; log 2,
log 4). -/
structure State where
  /-- The run's parameters N, XLEN, OVF, EXIT_FAIL; no step writes them (00_scope R8). -/
  cfg : Config
  /-- `MEM` (10_state R24). -/
  mem : Memory
  /-- `ACC`, the Accumulator (10_state R21). -/
  acc : Int
  /-- `PC`, the Program Counter (10_state R23). -/
  pc : Int
  /-- `PHASE` (10_state R26). -/
  phase : Phase
  /-- `FAULT` (10_state R27). -/
  fault : Option FatalError
  /-- `LP`, the Loader's next address (10_state R28). -/
  lp : Nat
  /-- `IN`, the whole input stream; no step writes it (00_scope R8, 10_state R29; log 4). As a list it
  comes to an end: that no stream is endless is the model's choice (DESIGN CHOICE; log 25). -/
  inp : List Token
  /-- `IP`, the number of tokens consumed (10_state R29). -/
  ip : Nat
  /-- `OUT`, the words emitted, oldest first (10_state R30). -/
  out : List Int
deriving DecidableEq, Repr

/-- Why the machine has no next step. A fatal error is none of these: raising one is a next state
(60_exceptions R158). -/
inductive Fault where
  /-- Raised by `step` alone, in PHASE = HALTED: the machine takes no further step (41_halt R101,
  10_state R26). Safe: the hardware takes none either (log 11). -/
  | noStepAfterHalt
  /-- Raised by `step` alone, in PHASE = FAULTED: from FAULTED there is no step (60_exceptions R158,
  10_state R26). Safe: the hardware takes none either (log 11). -/
  | noStepAfterFatalError
deriving DecidableEq, Repr

/-- Instructions without a meaning. -/
inductive Refusal where
  /-- Raised by `exec` alone, for an instruction with no meaning yet; no arm does. Safe. -/
  | notModelled (mnemonic : String)
deriving DecidableEq, Repr

/-- The machine right after reset, with the run's parameters and its input stream (10_state R33,
70_reset R180). -/
def State.resetWith (cfg : Config) (inp : List Token) : State :=
  { cfg := cfg, mem := [], acc := 0, pc := 0, phase := .load, fault := none,
    lp := 0, inp := inp, ip := 0, out := [] }

/-- Reset at the default parameters (00_scope R5), with nothing supplied on the input port: the stream
is the environment's and is not part of reset (log 4, log 5). -/
def State.reset : State := State.resetWith Config.default []

/-- The launch state of 70_reset R189: the Engine started directly on a Memory `m`. R189 gives LP no
value; 0 is the model's choice (DESIGN CHOICE; log 26), and no cycle reads it (10_state R28). -/
def State.launch (cfg : Config) (m : Memory) (inp : List Token) : State :=
  { State.resetWith cfg inp with mem := m, phase := .run }

end Sys2Proof.Machine
end

