-- ==== Sys2Proof/Machine/Ops.lean ====
section
/-! DEFINITION. The named operations over Memory, the registers and the streams (00_scope R13), and
raising a fatal error, once for all (60_exceptions R158). There is no return from one
(60_exceptions R159), so none stands beside it. -/

namespace Sys2Proof.Machine

/-- The content of cell `a`: its entry, or the reset value 0 (20_memory R43, R48). -/
def Memory.get (m : Memory) (a : Nat) : Int :=
  match m with
  | [] => 0
  | (b, w) :: rest => if a = b then w else Memory.get rest a

/-- Replace cell `a` by `v` (20_memory R43), keeping the canonical form: writing 0 removes the entry. -/
def Memory.set (m : Memory) (a : Nat) (v : Int) : Memory :=
  match m with
  | [] => if v = 0 then [] else [(a, v)]
  | (b, w) :: rest =>
    if a < b then (if v = 0 then (b, w) :: rest else (a, v) :: (b, w) :: rest)
    else if a = b then (if v = 0 then rest else (a, v) :: rest)
    else (b, w) :: Memory.set rest a v

/-- Every address of `m` is above `lo`. -/
def Memory.above (lo : Nat) (m : Memory) : Bool := m.all fun e => decide (lo < e.1)

/-- The canonical form: strictly rising addresses, and no entry that holds the reset value 0. -/
def Memory.wf (m : Memory) : Bool :=
  match m with
  | [] => true
  | (a, v) :: rest => decide (v ≠ 0) && Memory.above a rest && Memory.wf rest

/-- Every listed cell exists among the `n` cells and holds a word of `Int_XLEN` (10_state R24). -/
def Memory.within (n xlen : Nat) (m : Memory) : Bool :=
  m.all fun e => decide (e.1 < n) && decide (Fits xlen e.2)

namespace State

/-- `MemRead(a)`; every caller has validated `a` (20_memory R43, R45). -/
def memRead (s : State) (a : Nat) : Int := s.mem.get a

/-- `MemWrite(a, v)`; every caller has validated `a` (20_memory R43, R45). -/
def memWrite (s : State) (a : Nat) (v : Int) : State := { s with mem := s.mem.set a v }

/-- `ACC <- v` (00_scope R13). -/
def setAcc (s : State) (v : Int) : State := { s with acc := v }

/-- `InNext()`: the token at `IP`, which does not move; beyond the last token supplied it is `end`
(10_state R29; every stream has one, log 25), and a numeral too large for `Int_XLEN` is delivered as
`bad` (00_scope R12; log 7). -/
def inNext (s : State) : Token :=
  match s.inp[s.ip]? with
  | some (.int v) => if Fits s.cfg.xlen v then .int v else .bad
  | some .bad => .bad
  | some .eos => .eos
  | none => .eos

/-- `IP <- IP + 1` (10_state R29). -/
def consume (s : State) : State := { s with ip := s.ip + 1 }

/-- `OutEmit(v)` (00_scope R13, 45_io R134). -/
def outEmit (s : State) (v : Int) : State := { s with out := s.out ++ [v] }

/-- `raise F(x)`: PHASE and FAULT are written and nothing else (60_exceptions R158, 40_cycle R89). -/
def raise (s : State) (code : FatalCode) (value : Int) : State :=
  { s with phase := .faulted, fault := some { code := code, value := value } }

/-- `halt`: PHASE is written and nothing else (00_scope R13, 41_halt R100). -/
def doHalt (s : State) : State := { s with phase := .halted }

/-- The hand-over from Loader to Engine (70_reset R188). -/
def enterRun (s : State) : State := { s with phase := .run }

/-- `LP <- LP + 1` (70_reset R182). -/
def bumpLp (s : State) : State := { s with lp := s.lp + 1 }

end State

/-- The program counter sequencer: the target if the action set PC, else PC + 1 (40_cycle R86, R90). -/
def nextPc (pc : Int) (target : Option Int) : Int :=
  match target with
  | some t => t
  | none => pc + 1

/-- Step 6 of the cycle (40_cycle R86); `target` is the address the action put into PC, if it did. -/
def State.sequence (s : State) (target : Option Int) : State := { s with pc := nextPc s.pc target }

/-- The numbers of the phases; a suggestion, nothing observes them (10_state R26). -/
def Phase.number : Phase → Nat
  | .load => 0
  | .run => 1
  | .halted => 2
  | .faulted => 3

/-- The codes of 60_exceptions R150; 0 stands for no error. -/
def FatalCode.number : FatalCode → Nat
  | .malformedInput => 1
  | .memoryOverflow => 2
  | .invalidOperand => 3
  | .pcOutOfBounds => 4
  | .invalidInstruction => 5
  | .arithmeticOverflow => 6

/-- `EXIT`, the status reported to the environment; undefined, so none, before the machine has stopped
(60_exceptions R163). -/
def State.exitStatus (s : State) : Option Int :=
  match s.phase with
  | .halted => some 0
  | .faulted => some s.cfg.exitFail
  | .load => none
  | .run => none

/-- The state whose next step runs the word `w`: the Engine is running (70_reset R189) and `w` is in
the cell PC points at; a PC outside Memory is put at the entry point 0 (log 5, log 21). -/
def State.placeWord (s : State) (w : Int) : State :=
  let pc := if Valid s.cfg.n s.pc then s.pc else 0
  { s with phase := .run, fault := none, pc := pc, mem := s.mem.set pc.toNat w }

end Sys2Proof.Machine
end

