-- ==== Sys2Proof/Machine/Operands.lean ====
section
/-! DEFINITION. The one operand form: absolute, used exactly as decoded, validated for every
instruction (30_encoding R63, 43_load_store R118, 40_cycle R84). -/

namespace Sys2Proof.Machine

/-- `EA = k`: no index, indirection, scaling or extension (43_load_store R118). -/
def effectiveAddress (k : Nat) : Nat := k

/-- Step 4 of the cycle before an action: an operand outside `[0, N)` is the fatal error
InvalidOperand, whatever the instruction (40_cycle R84). The decoder has made the same check for a
fetched word; `exec` makes it for any instruction it is given (log 12). -/
def withOperand (k : Nat) (s : State) (action : State → Host.Outcome State Fault Refusal) :
    Host.Outcome State Fault Refusal :=
  if Valid s.cfg.n (k : Int) then action s else .next (s.raise .invalidOperand (k : Int))

end Sys2Proof.Machine
end

