-- ==== Sys2Proof/Machine/Alu.lean ====
section
/-! DEFINITION. The accumulator ALU (42_arithmetic R105, 40_cycle R90). -/

namespace Sys2Proof.Machine

/-- The three functions of the ALU (40_cycle R90). -/
inductive AluOp where
  | add | sub | pass
deriving DecidableEq, Repr

/-- Bring an exact result into `Int_XLEN` under OVF; none is an overflow in the checked mode
(42_arithmetic R108, R109; log 3). -/
def bringIn (cfg : Config) (z : Int) : Option Int :=
  match cfg.ovf with
  | .wrap => some (wrap cfg.xlen z)
  | .fault => if Fits cfg.xlen z then some z else none

/-- `alu(op, a, m)`: the left operand is ACC, the right one the cell (40_cycle R90, 42_arithmetic R105). -/
def alu (cfg : Config) (op : AluOp) (a m : Int) : Option Int :=
  match op with
  | .add => bringIn cfg (a + m)
  | .sub => bringIn cfg (a - m)
  | .pass => some m

/-- Step 5 and 6 of ADD, SUB and LOAD: read the cell, write ACC, advance; an overflow reports the
cell's value and writes nothing (42_arithmetic R106, R107, R109; 43_load_store R116). -/
def accumulate (op : AluOp) (k : Nat) (s : State) : Host.Outcome State Fault Refusal :=
  match alu s.cfg op s.acc (s.memRead (effectiveAddress k)) with
  | some v => .next ((s.setAcc v).sequence none)
  | none => .next (s.raise .arithmeticOverflow (s.memRead (effectiveAddress k)))

end Sys2Proof.Machine
end

