-- ==== Sys2Proof/Machine/Arithmetic.lean ====
section
/-! DEFINITION. ADD and SUB (42_arithmetic). -/

namespace Sys2Proof.Machine

/-- ADD: `ACC <- add_result(ACC, MEM[k])` (42_arithmetic R106). -/
def execAdd (k : Nat) (s : State) : Host.Outcome State Fault Refusal :=
  withOperand k s (accumulate .add k)

/-- SUB: `ACC <- sub_result(ACC, MEM[k])`, the cell subtracted from ACC (42_arithmetic R107). -/
def execSub (k : Nat) (s : State) : Host.Outcome State Fault Refusal :=
  withOperand k s (accumulate .sub k)

end Sys2Proof.Machine
end

