-- ==== Sys2Proof/Machine/Halt.lean ====
section
/-! DEFINITION. HALT (41_halt). -/

namespace Sys2Proof.Machine

/-- HALT: PHASE becomes HALTED, step 6 is not performed (41_halt R100, R101). -/
def execHalt (k : Nat) (s : State) : Host.Outcome State Fault Refusal :=
  withOperand k s fun s => .next s.doHalt

end Sys2Proof.Machine
end

