-- ==== Sys2Proof/Machine/InputOutput.lean ====
section
/-! DEFINITION. INPUT and OUTPUT (45_io). -/

namespace Sys2Proof.Machine

/-- INPUT: the next integer into `MEM[k]`; any other token is MalformedInput and nothing is written
(45_io R131, R132). -/
def execInput (k : Nat) (s : State) : Host.Outcome State Fault Refusal :=
  withOperand k s fun s =>
    match s.inNext with
    | .int v => .next (((s.memWrite (effectiveAddress k) v).consume).sequence none)
    | .bad => .next (s.raise .malformedInput 0)
    | .eos => .next (s.raise .malformedInput 0)

/-- OUTPUT: `OUT <- OUT ++ [MEM[k]]` (45_io R134). -/
def execOutput (k : Nat) (s : State) : Host.Outcome State Fault Refusal :=
  withOperand k s fun s => .next ((s.outEmit (s.memRead (effectiveAddress k))).sequence none)

end Sys2Proof.Machine
end

