-- ==== Sys2Proof/Machine/Flags.lean ====
section
/-! DEFINITION. There are no flags and no condition codes (10_state R25): ADD and SUB write ACC alone,
and a conditional jump tests the current ACC by one of the two comparisons below. -/

namespace Sys2Proof.Machine

/-- `ACC == 0` (44_jumps R122, 42_arithmetic R110). -/
def accIsZero (s : State) : Bool := decide (s.acc = 0)

/-- `ACC > 0`, signed and strict (44_jumps R123, 42_arithmetic R110). -/
def accIsPositive (s : State) : Bool := decide (0 < s.acc)

end Sys2Proof.Machine
end

