-- ==== Sys2Proof/Machine/Jumps.lean ====
section
/-! DEFINITION. JUMP, JUMP-IF-ZERO and JUMP-IF-POSITIVE (44_jumps). -/

namespace Sys2Proof.Machine

/-- A jump to `k` if `taken`, else the increment of step 6 (44_jumps R120, R124; 40_cycle R86). -/
def jumpIf (taken : Bool) (k : Nat) (s : State) : State :=
  s.sequence (if taken then some (effectiveAddress k : Int) else none)

/-- JUMP (44_jumps R121). -/
def execJump (k : Nat) (s : State) : Host.Outcome State Fault Refusal :=
  withOperand k s fun s => .next (jumpIf true k s)

/-- JZ: taken if `ACC == 0` (44_jumps R122). -/
def execJz (k : Nat) (s : State) : Host.Outcome State Fault Refusal :=
  withOperand k s fun s => .next (jumpIf (accIsZero s) k s)

/-- JP: taken if `ACC > 0` (44_jumps R123). -/
def execJp (k : Nat) (s : State) : Host.Outcome State Fault Refusal :=
  withOperand k s fun s => .next (jumpIf (accIsPositive s) k s)

end Sys2Proof.Machine
end

