-- ==== Sys2Proof/Machine/LoadStore.lean ====
section
/-! DEFINITION. STORE and LOAD (43_load_store). -/

namespace Sys2Proof.Machine

/-- STORE: `MEM[k] <- ACC` (43_load_store R115). -/
def execStore (k : Nat) (s : State) : Host.Outcome State Fault Refusal :=
  withOperand k s fun s => .next ((s.memWrite (effectiveAddress k) s.acc).sequence none)

/-- LOAD: `ACC <- MEM[k]`, through the ALU's PASS (43_load_store R116, 40_cycle R90). -/
def execLoad (k : Nat) (s : State) : Host.Outcome State Fault Refusal :=
  withOperand k s (accumulate .pass k)

end Sys2Proof.Machine
end

