-- ==== Sys2Proof/Machine/Dispatch.lean ====
section
/-! DEFINITION. Dispatch: one arm per constructor of Instr (40_cycle R85). -/

namespace Sys2Proof.Machine

-- Steps 4 to 6 of the cycle for a decoded instruction; the driver calls it in PHASE = RUN only (R80).
def exec (i : Instr) (s : State) : Host.Outcome State Fault Refusal :=
  match i with
  | .halt k => Sys2Proof.Machine.execHalt k s
  | .add k => Sys2Proof.Machine.execAdd k s
  | .sub k => Sys2Proof.Machine.execSub k s
  | .store k => Sys2Proof.Machine.execStore k s
  | .load k => Sys2Proof.Machine.execLoad k s
  | .jump k => Sys2Proof.Machine.execJump k s
  | .jz k => Sys2Proof.Machine.execJz k s
  | .jp k => Sys2Proof.Machine.execJp k s
  | .input k => Sys2Proof.Machine.execInput k s
  | .output k => Sys2Proof.Machine.execOutput k s

end Sys2Proof.Machine
end

