-- ==== Sys2Proof/Machine/Loader.lean ====
section
/-! DEFINITION. The Loader, the boot sequencer (70_reset R181 to R188). -/

namespace Sys2Proof.Machine

/-- One Loader step, for PHASE = LOAD: not an integer, the sentinel, no room, store, in this order
(70_reset R182; log 8). -/
def loadStep (s : State) : State :=
  match s.inNext with
  | .bad => s.raise .malformedInput 0
  | .eos => s.raise .malformedInput 0
  | .int v =>
    if v = sentinel then s.consume.enterRun
    else if s.cfg.n ≤ s.lp then s.raise .memoryOverflow v
    else ((s.memWrite s.lp v).bumpLp).consume

end Sys2Proof.Machine
end

