-- ==== Sys2Proof/Machine/Cycle.lean ====
section
/-! DEFINITION. The cycle driver (40_cycle R80 to R91) and one step of the whole machine (00_scope R14). -/

namespace Sys2Proof.Machine

/-- The fatal error of a word that is no instruction (60_exceptions R153, R155). -/
def State.raiseReject (s : State) (r : Reject) : State :=
  match r with
  | .invalidOperand v => s.raise .invalidOperand v
  | .invalidInstruction v => s.raise .invalidInstruction v

/-- Step 2: the word PC points at, read anew every cycle (40_cycle R82, 20_memory R51). -/
def State.fetch (s : State) : Int := s.memRead s.pc.toNat

/-- One cycle, for PHASE = RUN (40_cycle R91). -/
def cycle (s : State) : Host.Outcome State Fault Refusal :=
  if Valid s.cfg.n s.pc then
    match decode s.cfg.n s.fetch with
    | .ok i => exec i s
    | .error r => .next (s.raiseReject r)
  else .next (s.raise .pcOutOfBounds s.pc)

/-- One step: the Loader's or the Engine's by PHASE, and none in the two terminal phases (00_scope R14,
10_state R26). -/
def machineStep (s : State) : Host.Outcome State Fault Refusal :=
  match s.phase with
  | .load => .next (loadStep s)
  | .run => cycle s
  | .halted => .fault .noStepAfterHalt
  | .faulted => .fault .noStepAfterFatalError

end Sys2Proof.Machine
end

