-- ==== Sys2Proof/Machine/Step.lean ====
section
/-! DEFINITION. The step function, and the state whose next step runs a given word. -/

namespace Sys2Proof.Machine

/-- One step of the machine (Machine/Cycle.lean). -/
def step (s : State) : Host.Outcome State Fault Refusal := machineStep s

/-- `s` with the instruction of bits `w` stored where the next step fetches, and the Engine running:
this stands for the load of a program (70_reset R189; log 5, log 22). -/
def State.withFetchWord (s : State) (_nbits w : Nat) : State := s.placeWord (wordOfBits s.cfg.xlen w)

end Sys2Proof.Machine
end

