-- ==== Sys2Proof/Safety.lean ====
section
/-! DEFINITION. What a claim about a run speaks of: the machine's invariant, the states a run reaches,
and how a run ends (60_exceptions R162). -/

namespace Sys2Proof.Machine

/-- What is true of every reachable state. -/
structure State.Inv (s : State) : Prop where
  /-- The parameters are legal (00_scope R6). -/
  cfg : s.cfg.Wf
  /-- Memory is in its canonical form. -/
  memWf : s.mem.wf = true
  /-- Every cell is one of the N cells and holds a word of `Int_XLEN` (10_state R24). -/
  memWithin : s.mem.within s.cfg.n s.cfg.xlen = true
  /-- ACC is a word of `Int_XLEN` (10_state R21). -/
  acc : Fits s.cfg.xlen s.acc
  /-- PC is in `0 .. N` (10_state R23). -/
  pc : 0 ≤ s.pc ∧ s.pc ≤ (s.cfg.n : Int)
  /-- LP is in `0 .. N` (10_state R28). -/
  lp : s.lp ≤ s.cfg.n
  /-- IP counts tokens that were supplied (10_state R29). -/
  ip : s.ip ≤ s.inp.length
  /-- Every word emitted is a word of `Int_XLEN` (00_scope R9). -/
  out : ∀ w ∈ s.out, Fits s.cfg.xlen w
  /-- `FAULT != none` exactly when `PHASE = FAULTED` (10_state R27). -/
  fault : s.fault ≠ none ↔ s.phase = .faulted
  /-- The Loader never touches ACC, PC or OUT (70_reset R181, R186). -/
  loading : s.phase = .load → s.acc = 0 ∧ s.pc = 0 ∧ s.out = []

/-- `k` steps of the machine from `s`, ending early where there is no step. -/
def steps (k : Nat) (s : State) : Host.Outcome State Fault Refusal :=
  match k with
  | 0 => .next s
  | k + 1 =>
    match step s with
    | .next t => steps k t
    | .fault r => .fault r
    | .refused r => .refused r

/-- The states a run from reset reaches, whatever its parameters and its input stream. -/
inductive Reachable (cfg : Config) (inp : List Token) : State → Prop where
  | reset : Reachable cfg inp (State.resetWith cfg inp)
  | step (s t : State) : Reachable cfg inp s → step s = .next t → Reachable cfg inp t

/-- The run ended well (60_exceptions R162, R163). -/
abbrev State.Succeeded (s : State) : Prop := s.phase = .halted

/-- The run ended in a fatal error (60_exceptions R158). -/
abbrev State.Failed (s : State) : Prop := s.phase = .faulted

end Sys2Proof.Machine
end

