-- ==== Sys2Proof/Certificates/Slice0/Obligations.lean ====
section
/-! DEFINITION. The statements for the provers. Each docstring's rule is the rule of spec/ the statement
formalises; where the spec itself marks that rule as derived or as a decision of its own, the docstring
says so. Every statement holds for every choice of the run's parameters (00_scope R5) that its premises
allow: the parameters are a field of the state. -/

namespace Sys2Proof.Claims

open Sys2Proof.Machine

/-- `s` stopped in the fatal error `c` with the value `v`: PHASE and FAULT written, nothing else: the
meaning 00_scope R13 gives `raise`. Written out here, not by the model's own operation. Every statement
that says `stopped` rests, for PC, LP, IP and OUT there, on the spec's decision D6 (60_exceptions R158,
40_cycle R89; log 9), and for the code and the value, labels of the error, on its decision D5 (R150;
log 17). -/
def stopped (s : State) (c : FatalCode) (v : Int) : State :=
  { s with phase := .faulted, fault := some { code := c, value := v } }

/-- The word the cycle of `s` fetches: the cell PC points at (40_cycle R82). -/
def fetched (s : State) : Int := s.mem.get s.pc.toNat

/-- The next token of the input port is the integer `v` (00_scope R12): it was supplied and it fits. -/
abbrev nextIs (s : State) (v : Int) : Prop := s.inp[s.ip]? = some (.int v) ∧ Fits s.cfg.xlen v

/-- The cycle of `s` executes the instruction `i`: the Engine runs, PC is valid, the word fetched
decodes to `i` (40_cycle R81 to R85). -/
def executes (s : State) (i : Instr) : Prop :=
  s.phase = .run ∧ Valid s.cfg.n s.pc ∧ decode s.cfg.n (fetched s) = .ok i

/-- The reset state with the integers `vs` first on the input port, then the tokens `rest`. -/
def loading (cfg : Config) (vs : List Int) (rest : List Token) : State :=
  State.resetWith cfg (vs.map Token.int ++ rest)

end Sys2Proof.Claims

open Sys2Proof Sys2Proof.Machine Sys2Proof.Claims

/-! ### The instructions, one statement each -/

/-- R100: HALT ends the run, and no word of -99 .. -1 or N .. 99 is one. That HALT leaves PC at its own
address is the spec's decision D7 (R101; log 10); that the fatal error writes nothing else D6 (log 9), the
value it reports D5 (log 17). -/
def Obligations.HaltStopsSuccessfully : Prop :=
  (∀ (k : Nat) (s : State),
    (Valid s.cfg.n k → exec (.halt k) s = .next { s with phase := .halted }) ∧
    (¬ Valid s.cfg.n k → exec (.halt k) s = .next (stopped s .invalidOperand k))) ∧
  (∀ n k : Nat, k < 100 → k < n → decode n (k : Int) = .ok (.halt k)) ∧
  (∀ (n : Nat) (w : Int), -99 ≤ w → w ≤ 99 → ¬ Valid n w → decode n w = .error (.invalidOperand w)) ∧
  (∀ (cfg : Config) (rest : List Token), cfg.Wf →
    steps 2 (State.resetWith cfg (.int (-1) :: rest)) =
      .next { State.resetWith cfg (.int (-1) :: rest) with ip := 1, phase := .halted })

/-- R106: ADD, in both overflow modes. What OVF = fault does (the exact result, or ArithmeticOverflow) and
that OVF = wrap gives the value modulo 2^XLEN are the spec's decision D2 (log 3); that the overflow
reports the cell's value is its decision D5 (log 17), that nothing else is written D6 (log 9). -/
def Obligations.AddAddsTheCellToAcc : Prop :=
  (∀ (k : Nat) (s : State),
    (Valid s.cfg.n k → s.cfg.ovf = .wrap → exec (.add k) s =
      .next { s with acc := wrap s.cfg.xlen (s.acc + s.mem.get k), pc := s.pc + 1 }) ∧
    (Valid s.cfg.n k → s.cfg.ovf = .fault → Fits s.cfg.xlen (s.acc + s.mem.get k) → exec (.add k) s =
      .next { s with acc := s.acc + s.mem.get k, pc := s.pc + 1 }) ∧
    (Valid s.cfg.n k → s.cfg.ovf = .fault → ¬ Fits s.cfg.xlen (s.acc + s.mem.get k) →
      exec (.add k) s = .next (stopped s .arithmeticOverflow (s.mem.get k))) ∧
    (¬ Valid s.cfg.n k → exec (.add k) s = .next (stopped s .invalidOperand k))) ∧
  (∀ n k : Nat, k < 100 → k < n → decode n (100 + k) = .ok (.add k))

/-- R107: SUB subtracts the cell from ACC, in both overflow modes. What OVF = fault does (the exact
result, or ArithmeticOverflow) and that OVF = wrap gives the value modulo 2^XLEN are the spec's decision
D2 (log 3); that the overflow reports the cell's value is its decision D5 (log 17), that nothing else is
written D6 (log 9). -/
def Obligations.SubSubtractsTheCellFromAcc : Prop :=
  (∀ (k : Nat) (s : State),
    (Valid s.cfg.n k → s.cfg.ovf = .wrap → exec (.sub k) s =
      .next { s with acc := wrap s.cfg.xlen (s.acc - s.mem.get k), pc := s.pc + 1 }) ∧
    (Valid s.cfg.n k → s.cfg.ovf = .fault → Fits s.cfg.xlen (s.acc - s.mem.get k) → exec (.sub k) s =
      .next { s with acc := s.acc - s.mem.get k, pc := s.pc + 1 }) ∧
    (Valid s.cfg.n k → s.cfg.ovf = .fault → ¬ Fits s.cfg.xlen (s.acc - s.mem.get k) →
      exec (.sub k) s = .next (stopped s .arithmeticOverflow (s.mem.get k))) ∧
    (¬ Valid s.cfg.n k → exec (.sub k) s = .next (stopped s .invalidOperand k))) ∧
  (∀ n k : Nat, k < 100 → k < n → decode n (200 + k) = .ok (.sub k))

/-- R115: STORE writes the one cell `k`: it then reads as ACC, every other cell as before. -/
def Obligations.StoreWritesTheOneCell : Prop :=
  (∀ (k : Nat) (s : State),
    (Valid s.cfg.n k →
      exec (.store k) s = .next { s with mem := s.mem.set k s.acc, pc := s.pc + 1 } ∧
      (s.mem.wf = true → (s.mem.set k s.acc).get k = s.acc) ∧
      (∀ a, a ≠ k → (s.mem.set k s.acc).get a = s.mem.get a)) ∧
    (¬ Valid s.cfg.n k → exec (.store k) s = .next (stopped s .invalidOperand k))) ∧
  (∀ n k : Nat, k < 100 → k < n → decode n (300 + k) = .ok (.store k))

/-- R116: LOAD copies the cell `k` into ACC, in either overflow mode. -/
def Obligations.LoadCopiesTheCellToAcc : Prop :=
  (∀ (k : Nat) (s : State),
    (Valid s.cfg.n k → exec (.load k) s = .next { s with acc := s.mem.get k, pc := s.pc + 1 }) ∧
    (¬ Valid s.cfg.n k → exec (.load k) s = .next (stopped s .invalidOperand k))) ∧
  (∀ n k : Nat, k < 100 → k < n → decode n (400 + k) = .ok (.load k))

/-- R121: JUMP sets PC to exactly `k`. -/
def Obligations.JumpSetsPcToTheOperand : Prop :=
  (∀ (k : Nat) (s : State),
    (Valid s.cfg.n k → exec (.jump k) s = .next { s with pc := k }) ∧
    (¬ Valid s.cfg.n k → exec (.jump k) s = .next (stopped s .invalidOperand k))) ∧
  (∀ n k : Nat, k < 100 → k < n → decode n (500 + k) = .ok (.jump k))

/-- R122: JZ is taken at ACC = 0 only; an invalid operand is fatal whether or not it would be taken. -/
def Obligations.JzJumpsExactlyWhenAccIsZero : Prop :=
  (∀ (k : Nat) (s : State),
    (Valid s.cfg.n k → s.acc = 0 → exec (.jz k) s = .next { s with pc := k }) ∧
    (Valid s.cfg.n k → s.acc ≠ 0 → exec (.jz k) s = .next { s with pc := s.pc + 1 }) ∧
    (¬ Valid s.cfg.n k → exec (.jz k) s = .next (stopped s .invalidOperand k))) ∧
  (∀ n k : Nat, k < 100 → k < n → decode n (600 + k) = .ok (.jz k))

/-- R123: JP is taken at ACC > 0 only; an invalid operand is fatal whether or not it would be taken. -/
def Obligations.JpJumpsExactlyWhenAccIsPositive : Prop :=
  (∀ (k : Nat) (s : State),
    (Valid s.cfg.n k → 0 < s.acc → exec (.jp k) s = .next { s with pc := k }) ∧
    (Valid s.cfg.n k → s.acc ≤ 0 → exec (.jp k) s = .next { s with pc := s.pc + 1 }) ∧
    (¬ Valid s.cfg.n k → exec (.jp k) s = .next (stopped s .invalidOperand k))) ∧
  (∀ n k : Nat, k < 100 → k < n → decode n (700 + k) = .ok (.jp k))

/-- R131: INPUT stores the next integer, or is MalformedInput with nothing written. That the end of the
stream is malformed is the spec's decision D10 (R132; log 6), that a numeral that does not fit is
delivered as bad its decision D9 (R12; log 7), that the fatal error writes nothing else and takes no token
D6 and D12 (log 9). -/
def Obligations.InputStoresTheNextInteger : Prop :=
  (∀ (k : Nat) (s : State),
    (∀ v, Valid s.cfg.n k → nextIs s v →
      exec (.input k) s =
        .next { s with mem := s.mem.set k v, ip := s.ip + 1, pc := s.pc + 1 } ∧
      (s.mem.wf = true → (s.mem.set k v).get k = v) ∧
      (∀ a, a ≠ k → (s.mem.set k v).get a = s.mem.get a)) ∧
    (Valid s.cfg.n k → (∀ v, ¬ nextIs s v) →
      exec (.input k) s = .next (stopped s .malformedInput 0)) ∧
    (¬ Valid s.cfg.n k → exec (.input k) s = .next (stopped s .invalidOperand k))) ∧
  (∀ n k : Nat, k < 100 → k < n → decode n (800 + k) = .ok (.input k))

/-- R134: OUTPUT emits the cell `k`. -/
def Obligations.OutputEmitsTheCell : Prop :=
  (∀ (k : Nat) (s : State),
    (Valid s.cfg.n k →
      exec (.output k) s = .next { s with out := s.out ++ [s.mem.get k], pc := s.pc + 1 }) ∧
    (¬ Valid s.cfg.n k → exec (.output k) s = .next (stopped s .invalidOperand k))) ∧
  (∀ n k : Nat, k < 100 → k < n → decode n (900 + k) = .ok (.output k))

/-! ### Frames -/

/-- Every cell an instruction does not store to reads as before, for every instruction and every outcome:
STORE and INPUT store to their operand's cell alone, the other eight to none. That an error raised inside
an instruction writes no cell is the spec's decision D6 (log 9). -/
def Obligations.MemoryFrameOfEveryInstruction : Prop :=
  ∀ (i : Instr) (s t : State), exec i s = .next t →
    ∀ a : Nat, (i = .store a ∨ i = .input a) ∨ t.mem.get a = s.mem.get a

/-- What no instruction writes, and the one kind of instruction that writes each other register. That a
step with a fatal error leaves these registers alone is the spec's decision D6 (log 9). -/
def Obligations.RegisterFrameOfEveryInstruction : Prop :=
  ∀ (i : Instr) (s t : State), exec i s = .next t →
    t.cfg = s.cfg ∧ t.lp = s.lp ∧ t.inp = s.inp ∧
    (i.opcode ≠ .input → t.ip = s.ip) ∧
    (i.opcode ≠ .output → t.out = s.out) ∧
    (i.opcode ≠ .add → i.opcode ≠ .sub → i.opcode ≠ .load → t.acc = s.acc) ∧
    (t.phase ≠ .faulted → t.fault = s.fault ∧
      (i.opcode = .halt → t.phase = .halted) ∧ (i.opcode ≠ .halt → t.phase = s.phase))

/-- 10_state section 2 (R22): the instructions outside ADD, SUB, LOAD leave ACC alone; HALT, JUMP, INPUT
and OUTPUT do the same whatever ACC holds, and LOAD loses its old value. That a step with a fatal error
leaves ACC alone is the spec's decision D6 (log 9). -/
def Obligations.OnlyTheTabledInstructionsUseAcc : Prop :=
  (∀ (i : Instr) (s t : State), exec i s = .next t →
    i.opcode ≠ .add → i.opcode ≠ .sub → i.opcode ≠ .load → t.acc = s.acc) ∧
  (∀ (i : Instr) (s t : State) (a : Int),
    i.opcode = .halt ∨ i.opcode = .jump ∨ i.opcode = .input ∨ i.opcode = .output →
    exec i s = .next t → exec i { s with acc := a } = .next { t with acc := a }) ∧
  (∀ (k : Nat) (s : State) (a : Int), Valid s.cfg.n k →
    exec (.load k) { s with acc := a } = exec (.load k) s) ∧
  (∀ (s t : State), s.phase = .load → step s = .next t → t.acc = s.acc)

/-! ### Arithmetic -/

/-- R10 (the spec's decision D2): `wrap(z)` is the one element of `Int_XLEN` congruent to `z`, and `fits`
says `wrap(z) = z`. The width and the two's complement range Int_XLEN are the spec's decision D1 (log 1);
the use of wrap for an overflow is log 3. -/
def Obligations.WrapIsTheUniqueResidue : Prop :=
  ∀ (x : Nat) (z : Int), 1 ≤ x →
    (Fits x (wrap x z) ∧ modulus x ∣ wrap x z - z) ∧
    (∀ y, Fits x y → modulus x ∣ y - z → y = wrap x z) ∧
    (Fits x z ↔ wrap x z = z)

/-- R108 (the spec's decision D2; log 3): under OVF = wrap a result outside `Int_XLEN` reaches ACC less
or plus one modulus. -/
def Obligations.OverflowWrapsByOneModulus : Prop :=
  ∀ (k : Nat) (s : State), s.cfg.Wf → s.cfg.ovf = .wrap → Valid s.cfg.n k →
    Fits s.cfg.xlen s.acc → Fits s.cfg.xlen (s.mem.get k) →
    let bring := fun z : Int =>
      if half s.cfg.xlen - 1 < z then z - modulus s.cfg.xlen
      else if z < -half s.cfg.xlen then z + modulus s.cfg.xlen else z
    exec (.add k) s = .next { s with acc := bring (s.acc + s.mem.get k), pc := s.pc + 1 } ∧
    exec (.sub k) s = .next { s with acc := bring (s.acc - s.mem.get k), pc := s.pc + 1 }

/-- R109 (the spec's decision D2; log 3): the checked mode, for ADD and SUB: the exact result if it fits,
else ArithmeticOverflow with the cell's value; where nothing overflows the two modes give the same result.
The value the overflow reports is the spec's decision D5 (log 17), that nothing else is written D6 (log
9). -/
def Obligations.CheckedModeRaisesOrIsExact : Prop :=
  ∀ (k : Nat) (s : State), s.cfg.Wf → Valid s.cfg.n k → s.cfg.ovf = .fault →
    let wrapping : State := { s with cfg := { s.cfg with ovf := .wrap } }
    (Fits s.cfg.xlen (s.acc + s.mem.get k) →
      exec (.add k) s = .next { s with acc := s.acc + s.mem.get k, pc := s.pc + 1 } ∧
      exec (.add k) wrapping = .next { wrapping with acc := s.acc + s.mem.get k, pc := s.pc + 1 }) ∧
    (¬ Fits s.cfg.xlen (s.acc + s.mem.get k) →
      exec (.add k) s = .next (stopped s .arithmeticOverflow (s.mem.get k))) ∧
    (Fits s.cfg.xlen (s.acc - s.mem.get k) →
      exec (.sub k) s = .next { s with acc := s.acc - s.mem.get k, pc := s.pc + 1 } ∧
      exec (.sub k) wrapping = .next { wrapping with acc := s.acc - s.mem.get k, pc := s.pc + 1 }) ∧
    (¬ Fits s.cfg.xlen (s.acc - s.mem.get k) →
      exec (.sub k) s = .next (stopped s .arithmeticOverflow (s.mem.get k)))

/-- R110 (derived by the spec): ADD k then SUB k restores ACC under OVF = wrap, even if the value between
wrapped. It holds because an overflow under OVF = wrap is taken modulo 2^XLEN, the spec's decision D2 (log
3). -/
def Obligations.AddThenSubRestoresAcc : Prop :=
  ∀ (k : Nat) (s t : State), s.cfg.Wf → s.cfg.ovf = .wrap → Valid s.cfg.n k →
    Fits s.cfg.xlen s.acc → exec (.add k) s = .next t →
    exec (.sub k) t = .next { s with pc := s.pc + 2 }

/-! ### Encoding -/

/-- R69 (derived by the spec): decode of `enc(opcode, k)` gives back the two fields, and for a well-formed instruction the
instruction, with every operand the encoding admits. -/
def Obligations.DecodeOfEncodeIsTheInstruction : Prop :=
  (∀ i : Instr, i.operand < 100 → encode i = 100 * i.opcode.code + i.operand ∧
    opcodeField (encode i) = i.opcode.code ∧ operandField (encode i) = i.operand) ∧
  (∀ (n : Nat) (i : Instr), WellFormed n i → decode n (encode i) = .ok i)

/-- A word that decodes is the encoding of what it decodes to, and that instruction is well formed: no
two words decode alike. -/
def Obligations.EncodeOfDecodeIsTheWord : Prop :=
  ∀ (n : Nat) (ir : Int) (i : Instr), decode n ir = .ok i → encode i = ir ∧ WellFormed n i

/-- R65 (derived by the spec): what the decoder answers in each of the five classes of words, which
exclude each other and leave no word out. The values that the two errors report are the spec's decision D5
(log 17). -/
def Obligations.EveryWordFallsInItsClass : Prop :=
  (∀ (n : Nat) (ir : Int), 1 ≤ n →
    let operand := Int.tmod ir 100
    (ir < 0 → operand ≠ 0 → decode n ir = .error (.invalidOperand operand) ∧
      -99 ≤ operand ∧ operand ≤ -1) ∧
    (0 ≤ ir → (n : Int) ≤ operand → decode n ir = .error (.invalidOperand operand) ∧ n < 100) ∧
    (ir < 0 → operand = 0 → ∃ j : Nat, 1 ≤ j ∧ ir = -(100 * (j : Int)) ∧
      decode n ir = .error (.invalidInstruction (-(j : Int)))) ∧
    (0 ≤ ir → ir ≤ 999 → operand < (n : Int) → ∃ i, decode n ir = .ok i ∧
      i.opcode.code = Int.tdiv ir 100 ∧ (i.operand : Int) = operand) ∧
    (1000 ≤ ir → operand < (n : Int) →
      decode n ir = .error (.invalidInstruction (Int.tdiv ir 100)) ∧ 10 ≤ Int.tdiv ir 100)) ∧
  (∀ ir : Int, (∃ i, decode 256 ir = .ok i) ↔ 0 ≤ ir ∧ ir ≤ 999)

/-- Words written out digit by digit from the table of 30_encoding R64, one for each family, and words
that are no instruction (R62, R65). A sanity statement. The values that the rejected words report are the
spec's decision D5 (log 17). -/
def Obligations.TableWordsDecode : Prop :=
  decode 256 57 = .ok (.halt 57) ∧ decode 256 109 = .ok (.add 9) ∧ decode 256 210 = .ok (.sub 10) ∧
  decode 256 311 = .ok (.store 11) ∧ decode 256 499 = .ok (.load 99) ∧ decode 256 500 = .ok (.jump 0) ∧
  decode 256 609 = .ok (.jz 9) ∧ decode 256 703 = .ok (.jp 3) ∧ decode 256 810 = .ok (.input 10) ∧
  decode 256 912 = .ok (.output 12) ∧ decode 256 1000 = .error (.invalidInstruction 10) ∧
  decode 256 (-109) = .error (.invalidOperand (-9)) ∧
  decode 256 (-100) = .error (.invalidInstruction (-1)) ∧ decode 16 116 = .error (.invalidOperand 16)

/-! ### The cycle -/

/-- A step runs the decoded instruction: where the cell PC points at decodes to `i`, the step is
`exec i` on the same state, with nothing added around it (the advance of PC is part of `exec`). -/
def Obligations.StepRunsTheDecodedInstruction : Prop :=
  ∀ (s : State) (i : Instr), s.phase = .run → Valid s.cfg.n s.pc →
    decode s.cfg.n (s.mem.get s.pc.toNat) = .ok i → step s = exec i s

/-- R81: the PC check, two-sided, before the fetch; in a reachable state it fails at N only. -/
def Obligations.InvalidPcIsFatal : Prop :=
  (∀ s : State, s.phase = .run → ¬ Valid s.cfg.n s.pc →
    step s = .next (stopped s .pcOutOfBounds s.pc)) ∧
  (∀ (cfg : Config) (inp : List Token) (s : State), cfg.Wf → Reachable cfg inp s →
    ¬ Valid cfg.n s.pc → s.pc = cfg.n)

/-- R154 (derived by the spec): the one way to a PC outside Memory is to complete an instruction that does
not jump at address N - 1. The value of the PcOutOfBounds is the spec's decision D5 (log 17), that it
writes nothing else D6 (log 9). -/
def Obligations.PcLeavesMemoryOnlyAtItsEnd : Prop :=
  ∀ s t : State, s.Inv → s.phase = .run → step s = .next t → t.phase = .run →
    ¬ Valid t.cfg.n t.pc →
    s.pc = (s.cfg.n : Int) - 1 ∧ t.pc = s.cfg.n ∧
    step t = .next (stopped t .pcOutOfBounds s.cfg.n) ∧
    ∃ i, executes s i ∧ i.opcode ≠ .halt ∧ i.opcode ≠ .jump ∧
      (i.opcode = .jz → s.acc ≠ 0) ∧ (i.opcode = .jp → s.acc ≤ 0)

/-- R84: the operand check, for every word and before its opcode is looked at. -/
def Obligations.InvalidOperandIsFatalWhateverTheOpcode : Prop :=
  ∀ s : State, s.phase = .run → Valid s.cfg.n s.pc →
    ¬ Valid s.cfg.n (Int.tmod (s.mem.get s.pc.toNat) 100) →
    step s = .next (stopped s .invalidOperand (Int.tmod (s.mem.get s.pc.toNat) 100))

/-- R155: an opcode outside 0 to 9, the operand being valid; with N >= 100 these are the words 1000 and
up and the negative multiples of 100. -/
def Obligations.UnknownOpcodeIsFatal : Prop :=
  (∀ s : State, s.phase = .run → Valid s.cfg.n s.pc →
    Valid s.cfg.n (Int.tmod (s.mem.get s.pc.toNat) 100) →
    Int.tdiv (s.mem.get s.pc.toNat) 100 < 0 ∨ 10 ≤ Int.tdiv (s.mem.get s.pc.toNat) 100 →
    step s = .next (stopped s .invalidInstruction (Int.tdiv (s.mem.get s.pc.toNat) 100))) ∧
  (∀ (n : Nat) (ir : Int), 100 ≤ n →
    ((∃ v, decode n ir = .error (.invalidInstruction v)) ↔
      1000 ≤ ir ∨ (ir < 0 ∧ ∃ j : Int, ir = 100 * j)))

/-- R86: PC after a cycle, the complete table. That PC stays at a HALT is the spec's decision D7 (R101;
log 10), that it stays at a fatal error D6 (R89; log 9). -/
def Obligations.PcAfterEachCycle : Prop :=
  (∀ (s t : State) (i : Instr), executes s i → step s = .next t → t.phase ≠ .faulted →
    t.pc = match i with
      | .halt _ => s.pc
      | .jump k => (k : Int)
      | .jz k => if s.acc = 0 then (k : Int) else s.pc + 1
      | .jp k => if 0 < s.acc then (k : Int) else s.pc + 1
      | .add _ | .sub _ | .store _ | .load _ | .input _ | .output _ => s.pc + 1) ∧
  (∀ s t : State, s.phase = .run → step s = .next t → t.phase = .faulted → t.pc = s.pc)

/-- R67 (derived by the spec): with N >= 100 each of the words 0 to 99 at PC halts the machine. That PC
stays at the HALT is the spec's decision D7 (R101; log 10). -/
def Obligations.SmallWordsHalt : Prop :=
  ∀ s : State, s.phase = .run → 100 ≤ s.cfg.n → Valid s.cfg.n s.pc →
    0 ≤ s.mem.get s.pc.toNat → s.mem.get s.pc.toNat ≤ 99 → step s = .next { s with phase := .halted }

/-- R80: in PHASE = RUN a cycle always ends, in one of three ways; a Loader step always ends too. That the
step ends where it reads or writes a stream is no fact of the hardware but the spec's decision D16 (R133,
R135; log 14): the environment answers every read, with a token or the end of the stream, and accepts
every write. One that does neither leaves the hardware waiting inside INPUT, OUTPUT or the Loader, a run
this model does not have. That the step records its outcome in PHASE and FAULT is the spec's decisions D4
and D5 (log 19, log 17). -/
def Obligations.EveryCycleEndsInOneOfThreeWays : Prop :=
  (∀ s : State, s.phase = .run → ∃ t, step s = .next t ∧
    (t.phase = .run ∨ (t.phase = .halted ∧ ∃ k, executes s (.halt k)) ∨
      (t.phase = .faulted ∧ ∃ e, t.fault = some e))) ∧
  (∀ s : State, s.phase = .load → ∃ t, step s = .next t)

/-! ### Phases and fatal errors -/

/-- In the two terminal phases there is no step (10_state section 6; the spec's decision D4). The two
fault names are the model's way to say it (log 11). -/
def Obligations.TerminalPhasesTakeNoStep : Prop :=
  ∀ s : State, (s.phase = .halted → step s = .fault .noStepAfterHalt) ∧
    (s.phase = .faulted → step s = .fault .noStepAfterFatalError)

/-- R26 (the spec's decision D4): which steps change PHASE, and to what. That the sentinel ends the load
even when no cell is left is the order of the Loader's tests, its decision D11 (log 8); the phases are log
19. -/
def Obligations.OnlyTheseEventsChangeThePhase : Prop :=
  ∀ s t : State, step s = .next t →
    (s.phase = .load ∧ (t.phase = .load ∨ t.phase = .run ∨ t.phase = .faulted) ∧
      (t.phase = .run ↔ s.inp[s.ip]? = some (.int (-1)))) ∨
    (s.phase = .run ∧ (t.phase = .run ∨ t.phase = .halted ∨ t.phase = .faulted) ∧
      (t.phase = .halted ↔ ∃ k, executes s (.halt k)))

/-- R89, R158 (the spec's decision D6; log 9): a step that raises a fatal error writes PHASE and FAULT and
nothing else, and no step follows it. PHASE and FAULT are the spec's decisions D4 and D5 (log 19, log 17).
-/
def Obligations.FatalErrorsArePrecise : Prop :=
  ∀ s t : State, step s = .next t → t.phase = .faulted →
    (∃ c v, t = stopped s c v) ∧ ∀ u, step t ≠ .next u

/-- R150 (codes and values are the spec's decision D5; log 17): who raises each fatal error, with which
value, and its code. ArithmeticOverflow is the spec's decision D2 (log 3). -/
def Obligations.FatalErrorsFollowTheTable : Prop :=
  (∀ (s t : State) (c : FatalCode) (v : Int), step s = .next t → t.phase = .faulted →
    t.fault = some { code := c, value := v } →
    match c with
    | .malformedInput => v = 0 ∧ (s.phase = .load ∨ ∃ k, executes s (.input k))
    | .memoryOverflow => s.phase = .load ∧ s.inp[s.ip]? = some (.int v)
    | .invalidOperand => s.phase = .run ∧ Valid s.cfg.n s.pc ∧ v = Int.tmod (fetched s) 100
    | .pcOutOfBounds => s.phase = .run ∧ v = s.pc
    | .invalidInstruction => s.phase = .run ∧ Valid s.cfg.n s.pc ∧ v = Int.tdiv (fetched s) 100
    | .arithmeticOverflow => s.cfg.ovf = .fault ∧
        ∃ k, (executes s (.add k) ∨ executes s (.sub k)) ∧ v = s.mem.get k) ∧
  (FatalCode.number .malformedInput = 1 ∧ FatalCode.number .memoryOverflow = 2 ∧
    FatalCode.number .invalidOperand = 3 ∧ FatalCode.number .pcOutOfBounds = 4 ∧
    FatalCode.number .invalidInstruction = 5 ∧ FatalCode.number .arithmeticOverflow = 6)

/-- R163 (the spec's decision D13; log 16, log 23): the status reported to the environment. -/
def Obligations.ExitStatusFollowsThePhase : Prop :=
  ∀ s : State, (s.phase = .halted → s.exitStatus = some 0) ∧
    (s.phase = .faulted → s.exitStatus = some s.cfg.exitFail) ∧
    (s.cfg.Wf → s.cfg.exitFail ≠ 0) ∧
    (s.phase = .load ∨ s.phase = .run → s.exitStatus = none)

/-! ### Invariants of every step -/

/-- The invariant of Safety.lean is kept by every step from every state that has it. It rests on these
decisions of the spec: words and results brought into Int_XLEN (D1, D2; log 1, log 3), a numeral that does
not fit delivered as bad (D9; log 7), no token taken by a step with a fatal error (D6, D12; log 9), the
fields PHASE and FAULT (D4, D5; log 19, log 17); that every stream is finite is log 25. -/
def Obligations.EveryStepKeepsTheInvariant : Prop :=
  ∀ s t : State, s.Inv → step s = .next t → t.Inv

/-- The invariant holds after reset, with any legal parameters and any input stream. The parameters and
the empty stream of State.reset are logs 1, 3, 4 and 16. -/
def Obligations.ResetHasTheInvariant : Prop :=
  State.reset.Inv ∧ ∀ (cfg : Config) (inp : List Token), cfg.Wf → (State.resetWith cfg inp).Inv

/-- R189 (the spec's decision D18): the launch state at the Engine, and that it has the invariant on any
legal Memory. The invariant also bounds LP, which R189 does not list: it is 0 there by the model's choice
(log 26). -/
def Obligations.EngineLaunchState : Prop :=
  ∀ (cfg : Config) (m : Memory) (inp : List Token),
    let s := State.launch cfg m inp
    (s.phase = .run ∧ s.acc = 0 ∧ s.pc = 0 ∧ s.fault = none ∧ s.out = [] ∧ s.mem = m ∧
      s.inp = inp ∧ s.ip = 0 ∧ s.cfg = cfg) ∧
    (cfg.Wf → m.wf = true → m.within cfg.n cfg.xlen = true → s.Inv)

/-- R33: the reset values, with any parameters and any input stream. -/
def Obligations.ResetValues : Prop :=
  ∀ (cfg : Config) (inp : List Token),
    let s := State.resetWith cfg inp
    (∀ a : Nat, s.mem.get a = 0) ∧ s.acc = 0 ∧ s.pc = 0 ∧ s.phase = .load ∧ s.fault = none ∧
    s.lp = 0 ∧ s.ip = 0 ∧ s.out = []

/-- A run from reset, whatever its parameters and its stream, keeps PC in 0 .. N. The spec marks R23 as
derived. -/
def Obligations.ReachablePcIsZeroToN : Prop :=
  ∀ (cfg : Config) (inp : List Token) (s : State), cfg.Wf → Reachable cfg inp s →
    s.cfg = cfg ∧ s.inp = inp ∧ 0 ≤ s.pc ∧ s.pc ≤ cfg.n

/-- No step changes the parameters of the run or the input stream (00_scope R8). That the two are fields
of State is the model's choice (log 2, log 4). -/
def Obligations.ParametersAndStreamAreFixed : Prop :=
  ∀ s t : State, step s = .next t → t.cfg = s.cfg ∧ t.inp = s.inp

/-! ### Streams -/

/-- R29 (the spec's decision D12; log 9): IP moves by one exactly when an integer token is taken by a step
that completes. That a numeral that does not fit is no integer token is the spec's decision D9 (log 7),
that a fatal error takes none D6 (log 9). -/
def Obligations.InputPositionMovesOnlyOnATakenInteger : Prop :=
  ∀ s t : State, step s = .next t →
    (t.ip = s.ip + 1 ∧ t.phase ≠ .faulted ∧ (∃ v, nextIs s v) ∧
      (s.phase = .load ∨ ∃ k, executes s (.input k))) ∨
    (t.ip = s.ip ∧ (t.phase = .faulted ∨ (s.phase = .run ∧ ∀ k, ¬ executes s (.input k))))

/-- OUT only grows, by the cell of an OUTPUT that executes, and by nothing else. That OUT holds the words
alone is the spec's decision D17 (log 15), that a fatal error leaves it D6 (log 9), that the environment
takes every word D16 (log 14). -/
def Obligations.OutputGrowsByEachOutputExecuted : Prop :=
  ∀ s t : State, step s = .next t →
    (∀ k, executes s (.output k) → t.out = s.out ++ [s.mem.get k]) ∧
    ((∀ k, ¬ executes s (.output k)) → t.out = s.out)

/-- No instruction reads LP or OUT: a cycle from a state that differs in them alone does the same to
everything else (10_state R20, R31). -/
def Obligations.ProgramsCannotReadLoadPointerOrOutput : Prop :=
  ∀ (s t : State) (l : Nat) (o : List Int), s.phase = .run → step s = .next t →
    ∃ o', step { s with lp := l, out := o } = .next { t with lp := l, out := o' }

/-! ### The Loader -/

/-- R182: one Loader step: not an integer, the sentinel, no room, store, in this order. The order of the
tests is the spec's decision D11 (log 8). That the end of the stream is malformed is its decision D10
(R184; log 6), that a numeral that does not fit is delivered as bad its decision D9 (R12; log 7), that a
fatal error writes nothing else and takes no token D6 and D12 (log 9), the values it reports D5 (log 17).
-/
def Obligations.LoaderStep : Prop :=
  ∀ s : State, s.phase = .load →
    ((∀ v, ¬ nextIs s v) → step s = .next (stopped s .malformedInput 0)) ∧
    (nextIs s (-1) → step s = .next { s with ip := s.ip + 1, phase := .run }) ∧
    (∀ v, nextIs s v → v ≠ -1 → s.cfg.n ≤ s.lp → step s = .next (stopped s .memoryOverflow v)) ∧
    (∀ v, nextIs s v → v ≠ -1 → s.lp < s.cfg.n →
      step s = .next { s with mem := s.mem.set s.lp v, lp := s.lp + 1, ip := s.ip + 1 })

/-- R187 (derived by the spec), R188: what a normal load leaves, for any integers that fit in Memory. That
N integers leave room for the sentinel is the order of the Loader's tests, the spec's decision D11 (R182;
log 8); that IP moves by one for each token D12 (log 9). -/
def Obligations.NormalLoadLeavesTheLaunchMemory : Prop :=
  ∀ (cfg : Config) (vs : List Int) (rest : List Token), cfg.Wf → vs.length ≤ cfg.n →
    (∀ v ∈ vs, v ≠ -1 ∧ Fits cfg.xlen v) →
    ∃ t, steps (vs.length + 1) (loading cfg vs (.int (-1) :: rest)) = .next t ∧
      (∀ i : Nat, t.mem.get i = vs.getD i 0) ∧
      t.lp = vs.length ∧ t.ip = vs.length + 1 ∧ t.phase = .run ∧ t.fault = none ∧
      t.acc = 0 ∧ t.pc = 0 ∧ t.out = [] ∧ t.cfg = cfg

/-- R185: N integers and then another that is not the sentinel: MemoryOverflow, nothing more stored; N
integers and then the sentinel: a normal load that fills Memory. That the sentinel needs no room is the
order of the Loader's tests, the spec's decision D11 (R182; log 8); that LP and IP keep their values at
the fatal error D6 and D12 (log 9), the value it reports D5 (log 17). -/
def Obligations.OneIntegerTooManyIsMemoryOverflow : Prop :=
  ∀ (cfg : Config) (vs : List Int) (v : Int) (rest : List Token), cfg.Wf → vs.length = cfg.n →
    (∀ w ∈ vs, w ≠ -1 ∧ Fits cfg.xlen w) → v ≠ -1 → Fits cfg.xlen v →
    ∃ t, steps (cfg.n + 1) (loading cfg vs (.int v :: rest)) = .next t ∧
      t.phase = .faulted ∧ t.fault = some { code := .memoryOverflow, value := v } ∧
      (∀ i : Nat, t.mem.get i = vs.getD i 0) ∧ t.lp = cfg.n ∧ t.ip = cfg.n ∧
    ∃ u, steps (cfg.n + 1) (loading cfg vs (.int (-1) :: rest)) = .next u ∧
      u.phase = .run ∧ u.fault = none ∧ (∀ i : Nat, u.mem.get i = vs.getD i 0)

/-- R184: a token that is no integer, or the end of the stream, before the sentinel: MalformedInput, and
the cells already loaded keep their values. That the end of the stream is malformed is the spec's decision
D10 (log 6; a token end inside the list is log 24). That after exactly N integers the error is
MalformedInput and not MemoryOverflow is the order of the Loader's tests, its decision D11 (R182; log 8),
where the source gives no order. That LP and IP keep their values is D6 and D12 (log 9), the reported
value 0 D5 (log 17). -/
def Obligations.MalformedLoadKeepsWhatWasLoaded : Prop :=
  ∀ (cfg : Config) (vs : List Int) (rest : List Token), cfg.Wf → vs.length ≤ cfg.n →
    (∀ w ∈ vs, w ≠ -1 ∧ Fits cfg.xlen w) → (∀ v, rest.head? ≠ some (.int v)) →
    ∃ t, steps (vs.length + 1) (loading cfg vs rest) = .next t ∧
      t.phase = .faulted ∧ t.fault = some { code := .malformedInput, value := 0 } ∧
      (∀ i : Nat, t.mem.get i = vs.getD i 0) ∧ t.lp = vs.length ∧ t.ip = vs.length

/-- Every state of a run that is still loading holds exactly the integers read, at increasing addresses
from 0, none of them the sentinel, and 0 above them; ACC, PC and OUT are untouched (R181, R187). That IP
moves by one with each integer stored is the spec's decision D12 (log 9). -/
def Obligations.LoadingStatesHoldTheIntegersRead : Prop :=
  ∀ (cfg : Config) (inp : List Token) (s : State), cfg.Wf → Reachable cfg inp s → s.phase = .load →
    s.ip = s.lp ∧ s.lp ≤ cfg.n ∧ s.acc = 0 ∧ s.pc = 0 ∧ s.out = [] ∧
    (∀ i : Nat, i < s.lp → inp[i]? = some (.int (s.mem.get i)) ∧ s.mem.get i ≠ -1) ∧
    (∀ i : Nat, s.lp ≤ i → s.mem.get i = 0)

/-! ### Memory across cycles -/

/-- R117 (derived by the spec): STORE then LOAD of one address restores ACC, unless the STORE overwrites the LOAD; two LOADs
of one unmodified address give the same value. -/
def Obligations.StoreLoadRoundTripAndLoadIdempotence : Prop :=
  (∀ (s : State) (a : Nat), s.Inv → s.phase = .run → Valid s.cfg.n s.pc → Valid s.cfg.n (s.pc + 1) →
    a < 100 → a < s.cfg.n → s.mem.get s.pc.toNat = 300 + a → s.mem.get (s.pc + 1).toNat = 400 + a →
    (a : Int) ≠ s.pc + 1 →
    ∃ t u, step s = .next t ∧ step t = .next u ∧ u.acc = s.acc ∧ u.pc = s.pc + 2) ∧
  (∀ (s : State) (a : Nat), s.phase = .run → Valid s.cfg.n s.pc → Valid s.cfg.n (s.pc + 1) →
    a < 100 → a < s.cfg.n → s.mem.get s.pc.toNat = 400 + a → s.mem.get (s.pc + 1).toNat = 400 + a →
    ∃ t u, step s = .next t ∧ step t = .next u ∧ t.acc = s.mem.get a ∧ u.acc = t.acc)

/-- R51 (derived by the spec): a write by STORE or INPUT to the next cell is what the next cycle fetches,
with no delay; a write to the instruction's own cell does not affect the current cycle. Which tokens are
integers (a numeral that does not fit is none) is the spec's decision D9 (log 7). -/
def Obligations.WritesAreSeenByTheNextFetch : Prop :=
  ∀ (s : State) (k : Nat), s.Inv → s.phase = .run → Valid s.cfg.n s.pc → k < 100 → k < s.cfg.n →
    (s.mem.get s.pc.toNat = 300 + k → ∃ t, step s = .next t ∧ t.phase = .run ∧ t.pc = s.pc + 1 ∧
      t.mem.get k = s.acc ∧
      ((k : Int) = s.pc + 1 → fetched t = s.acc ∧
        ∀ i, decode s.cfg.n s.acc = .ok i → step t = exec i t)) ∧
    (∀ v, nextIs s v → s.mem.get s.pc.toNat = 800 + k → ∃ t, step s = .next t ∧ t.phase = .run ∧
      t.pc = s.pc + 1 ∧ t.mem.get k = v ∧
      ((k : Int) = s.pc + 1 → fetched t = v ∧
        ∀ i, decode s.cfg.n v = .ok i → step t = exec i t))

/-- What a program can reach (20_memory R46): cells 100 and up are written by no cycle, and a cycle moves
PC to the next cell or to an address of two digits, or leaves it. That PC stays at a HALT is the spec's
decision D7 (log 10), and at a fatal error D6 (log 9). -/
def Obligations.HighCellsAreWrittenByTheLoaderOnly : Prop :=
  ∀ s t : State, s.phase = .run → step s = .next t →
    (∀ a : Nat, 100 ≤ a → t.mem.get a = s.mem.get a) ∧
    (t.pc = s.pc ∨ t.pc = s.pc + 1 ∨ (0 ≤ t.pc ∧ t.pc ≤ 99 ∧ t.pc < s.cfg.n))
end

