-- ==== Sys2Proof/Laws/Numbers.lean ====
section
/-! SUPPORT. The number system: the modulus is twice the bound, `wrap` lands in `Int_XLEN`, keeps what
fits, and changes a number by a multiple of the modulus (00_scope R9, R10). -/

namespace Sys2Proof

theorem half_pos (x : Nat) : 0 < half x := by
  have h : 0 < 2 ^ (x - 1) := Nat.two_pow_pos _
  unfold half
  omega

theorem modulus_eq_two_half {x : Nat} (hx : 0 < x) : modulus x = 2 * half x := by
  obtain ⟨y, rfl⟩ := Nat.exists_eq_succ_of_ne_zero (Nat.pos_iff_ne_zero.mp hx)
  simp [modulus, half, pow_succ, mul_comm]

/-- A width of at least 11 bits holds every instruction word 0 to 999 (00_scope R6). -/
theorem half_ge_1024 {x : Nat} (hx : 11 ≤ x) : 1024 ≤ half x := by
  have h : 2 ^ 10 ≤ 2 ^ (x - 1) := Nat.pow_le_pow_right (by decide) (by omega)
  unfold half
  omega

theorem fits_zero (x : Nat) : Fits x 0 := by
  have := half_pos x
  constructor <;> omega

theorem wrap_fits {x : Nat} (hx : 0 < x) (z : Int) : Fits x (wrap x z) := by
  have hm := modulus_eq_two_half hx
  have hp := half_pos x
  have h0 := Int.emod_nonneg z (b := modulus x) (by omega)
  have h1 := Int.emod_lt_of_pos z (b := modulus x) (by omega)
  unfold wrap
  split <;> constructor <;> omega

theorem wrap_of_fits {x : Nat} (hx : 0 < x) {z : Int} (h : Fits x z) : wrap x z = z := by
  have hm := modulus_eq_two_half hx
  have hp := half_pos x
  obtain ⟨h1, h2⟩ := h
  rcases lt_or_ge z 0 with hz | hz
  · have : z % modulus x = z + modulus x := by
      rw [← Int.add_emod_right]
      exact Int.emod_eq_of_lt (by omega) (by omega)
    have hn : ¬ z % modulus x < half x := by omega
    rw [wrap, if_neg hn, this, add_sub_cancel_right]
  · rw [wrap, Int.emod_eq_of_lt hz (by omega), if_pos (by omega)]

theorem wrap_emod (x : Nat) (z : Int) : wrap x z % modulus x = z % modulus x := by
  unfold wrap
  split <;> simp

theorem wrap_add_modulus (x : Nat) (z : Int) : wrap x (z + modulus x) = wrap x z := by
  simp [wrap]

theorem wrap_sub_modulus (x : Nat) (z : Int) : wrap x (z - modulus x) = wrap x z := by
  simp [wrap]

/-- Two words with the same residue are the same word. -/
theorem wrap_congr (x : Nat) {z y : Int} (h : z % modulus x = y % modulus x) :
    wrap x z = wrap x y := by
  simp [wrap, h]

/-- The decoder's division, for a word written as radix times opcode plus operand (00_scope R11). -/
theorem tdiv_tmod_of_nonneg {q r : Int} (hq : 0 ≤ q) (h0 : 0 ≤ r) (h1 : r < 100) :
    Int.tdiv (100 * q + r) 100 = q ∧ Int.tmod (100 * q + r) 100 = r := by
  rw [Int.tdiv_eq_ediv_of_nonneg (by omega), Int.tmod_eq_emod_of_nonneg (by omega)]
  omega

/-- Truncating division splits a word into its two fields and keeps its sign (00_scope R11). -/
theorem tdiv_tmod_spec (a : Int) :
    a = 100 * Int.tdiv a 100 + Int.tmod a 100 ∧ -99 ≤ Int.tmod a 100 ∧ Int.tmod a 100 ≤ 99 ∧
      (0 ≤ a → 0 ≤ Int.tmod a 100 ∧ 0 ≤ Int.tdiv a 100) ∧
      (a ≤ 0 → Int.tmod a 100 ≤ 0 ∧ Int.tdiv a 100 ≤ 0) := by
  have heq := Int.mul_tdiv_add_tmod a 100
  rcases le_total 0 a with h | h
  · have h1 := Int.tmod_eq_emod_of_nonneg (b := 100) h
    omega
  · have h2 := Int.neg_tmod a 100
    have h3 := Int.tmod_eq_emod_of_nonneg (a := -a) (b := 100) (by omega)
    omega

end Sys2Proof
end

