-- ==== Sys2Proof/Laws/Decode.lean ====
section
/-! SUPPORT. The opcode map both ways, and what the decoder answers, said once (30_encoding R64, R65). -/

namespace Sys2Proof

theorem Opcode.code_range (o : Opcode) : 0 ≤ o.code ∧ o.code ≤ 9 := by
  cases o <;> decide

@[simp] theorem Opcode.ofCode?_code (o : Opcode) : Opcode.ofCode? o.code = some o := by
  cases o <;> decide

theorem Opcode.code_of_ofCode? {v : Int} {o : Opcode} (h : Opcode.ofCode? v = some o) : o.code = v := by
  have := List.find?_some h
  simpa using this

/-- A number that no opcode has is outside 0 to 9 (40_cycle R85). -/
theorem Opcode.ofCode?_none {v : Int} (h : Opcode.ofCode? v = none) : v < 0 ∨ 10 ≤ v := by
  have hne : ∀ o : Opcode, o.code ≠ v := fun o ho => by simp [← ho] at h
  have h0 := hne .halt
  have h1 := hne .add
  have h2 := hne .sub
  have h3 := hne .store
  have h4 := hne .load
  have h5 := hne .jump
  have h6 := hne .jz
  have h7 := hne .jp
  have h8 := hne .input
  have h9 := hne .output
  simp only [Opcode.code] at *
  omega

@[simp] theorem Instr.make_opcode_operand (i : Instr) : Instr.make i.opcode i.operand = i := by
  cases i <;> rfl

@[simp] theorem Instr.opcode_make (o : Opcode) (k : Nat) : (Instr.make o k).opcode = o := by
  cases o <;> rfl

@[simp] theorem Instr.operand_make (o : Opcode) (k : Nat) : (Instr.make o k).operand = k := by
  cases o <;> rfl

theorem decode_of_not_valid {n : Nat} {ir : Int} (h : ¬ Valid n (operandField ir)) :
    decode n ir = .error (.invalidOperand (operandField ir)) := if_neg h

theorem decode_of_none {n : Nat} {ir : Int} (h : Valid n (operandField ir))
    (ho : Opcode.ofCode? (opcodeField ir) = none) :
    decode n ir = .error (.invalidInstruction (opcodeField ir)) := by
  unfold decode
  rw [if_pos h, ho]

theorem decode_of_some {n : Nat} {ir : Int} {o : Opcode} (h : Valid n (operandField ir))
    (ho : Opcode.ofCode? (opcodeField ir) = some o) :
    decode n ir = .ok (Instr.make o (operandField ir).toNat) := by
  unfold decode
  rw [if_pos h, ho]

/-- What a decoded instruction says of the word: its two fields are the instruction's. -/
theorem decode_ok {n : Nat} {ir : Int} {i : Instr} (h : decode n ir = .ok i) :
    opcodeField ir = i.opcode.code ∧ operandField ir = (i.operand : Int) ∧ i.operand < n := by
  unfold decode at h
  split at h
  · rename_i hv
    split at h
    · rename_i o ho
      cases h
      obtain ⟨h1, h2⟩ := hv
      rw [Instr.opcode_make, Instr.operand_make]
      exact ⟨(Opcode.code_of_ofCode? ho).symm, by omega, by omega⟩
    · cases h
  · cases h

/-- What a rejected word says of its fields (30_encoding R65). -/
theorem decode_error {n : Nat} {ir : Int} {r : Reject} (h : decode n ir = .error r) :
    (¬ Valid n (operandField ir) ∧ r = .invalidOperand (operandField ir)) ∨
    (Valid n (operandField ir) ∧ (opcodeField ir < 0 ∨ 10 ≤ opcodeField ir) ∧
      r = .invalidInstruction (opcodeField ir)) := by
  unfold decode at h
  split at h
  · rename_i hv
    split at h
    · cases h
    · rename_i ho
      exact .inr ⟨hv, Opcode.ofCode?_none ho, by cases h; rfl⟩
  · rename_i hv
    exact .inl ⟨hv, by cases h; rfl⟩

end Sys2Proof
end

