-- ==== Sys2Proof/Laws/State.lean ====
section
/-! SUPPORT. One lemma per field of State per update: the field the update writes, and every field it
keeps. -/

namespace Sys2Proof.Machine.State

variable (s : State)

@[simp] theorem memWrite_cfg (a : Nat) (v : Int) : (s.memWrite a v).cfg = s.cfg := rfl
@[simp] theorem memWrite_mem (a : Nat) (v : Int) : (s.memWrite a v).mem = s.mem.set a v := rfl
@[simp] theorem memWrite_acc (a : Nat) (v : Int) : (s.memWrite a v).acc = s.acc := rfl
@[simp] theorem memWrite_pc (a : Nat) (v : Int) : (s.memWrite a v).pc = s.pc := rfl
@[simp] theorem memWrite_phase (a : Nat) (v : Int) : (s.memWrite a v).phase = s.phase := rfl
@[simp] theorem memWrite_fault (a : Nat) (v : Int) : (s.memWrite a v).fault = s.fault := rfl
@[simp] theorem memWrite_lp (a : Nat) (v : Int) : (s.memWrite a v).lp = s.lp := rfl
@[simp] theorem memWrite_inp (a : Nat) (v : Int) : (s.memWrite a v).inp = s.inp := rfl
@[simp] theorem memWrite_ip (a : Nat) (v : Int) : (s.memWrite a v).ip = s.ip := rfl
@[simp] theorem memWrite_out (a : Nat) (v : Int) : (s.memWrite a v).out = s.out := rfl

@[simp] theorem setAcc_cfg (v : Int) : (s.setAcc v).cfg = s.cfg := rfl
@[simp] theorem setAcc_mem (v : Int) : (s.setAcc v).mem = s.mem := rfl
@[simp] theorem setAcc_acc (v : Int) : (s.setAcc v).acc = v := rfl
@[simp] theorem setAcc_pc (v : Int) : (s.setAcc v).pc = s.pc := rfl
@[simp] theorem setAcc_phase (v : Int) : (s.setAcc v).phase = s.phase := rfl
@[simp] theorem setAcc_fault (v : Int) : (s.setAcc v).fault = s.fault := rfl
@[simp] theorem setAcc_lp (v : Int) : (s.setAcc v).lp = s.lp := rfl
@[simp] theorem setAcc_inp (v : Int) : (s.setAcc v).inp = s.inp := rfl
@[simp] theorem setAcc_ip (v : Int) : (s.setAcc v).ip = s.ip := rfl
@[simp] theorem setAcc_out (v : Int) : (s.setAcc v).out = s.out := rfl

@[simp] theorem consume_cfg : (s.consume).cfg = s.cfg := rfl
@[simp] theorem consume_mem : (s.consume).mem = s.mem := rfl
@[simp] theorem consume_acc : (s.consume).acc = s.acc := rfl
@[simp] theorem consume_pc : (s.consume).pc = s.pc := rfl
@[simp] theorem consume_phase : (s.consume).phase = s.phase := rfl
@[simp] theorem consume_fault : (s.consume).fault = s.fault := rfl
@[simp] theorem consume_lp : (s.consume).lp = s.lp := rfl
@[simp] theorem consume_inp : (s.consume).inp = s.inp := rfl
@[simp] theorem consume_ip : (s.consume).ip = s.ip + 1 := rfl
@[simp] theorem consume_out : (s.consume).out = s.out := rfl

@[simp] theorem outEmit_cfg (v : Int) : (s.outEmit v).cfg = s.cfg := rfl
@[simp] theorem outEmit_mem (v : Int) : (s.outEmit v).mem = s.mem := rfl
@[simp] theorem outEmit_acc (v : Int) : (s.outEmit v).acc = s.acc := rfl
@[simp] theorem outEmit_pc (v : Int) : (s.outEmit v).pc = s.pc := rfl
@[simp] theorem outEmit_phase (v : Int) : (s.outEmit v).phase = s.phase := rfl
@[simp] theorem outEmit_fault (v : Int) : (s.outEmit v).fault = s.fault := rfl
@[simp] theorem outEmit_lp (v : Int) : (s.outEmit v).lp = s.lp := rfl
@[simp] theorem outEmit_inp (v : Int) : (s.outEmit v).inp = s.inp := rfl
@[simp] theorem outEmit_ip (v : Int) : (s.outEmit v).ip = s.ip := rfl
@[simp] theorem outEmit_out (v : Int) : (s.outEmit v).out = s.out ++ [v] := rfl

@[simp] theorem raise_cfg (c : FatalCode) (v : Int) : (s.raise c v).cfg = s.cfg := rfl
@[simp] theorem raise_mem (c : FatalCode) (v : Int) : (s.raise c v).mem = s.mem := rfl
@[simp] theorem raise_acc (c : FatalCode) (v : Int) : (s.raise c v).acc = s.acc := rfl
@[simp] theorem raise_pc (c : FatalCode) (v : Int) : (s.raise c v).pc = s.pc := rfl
@[simp] theorem raise_phase (c : FatalCode) (v : Int) : (s.raise c v).phase = .faulted := rfl
@[simp] theorem raise_fault (c : FatalCode) (v : Int) : (s.raise c v).fault = some { code := c, value := v } := rfl
@[simp] theorem raise_lp (c : FatalCode) (v : Int) : (s.raise c v).lp = s.lp := rfl
@[simp] theorem raise_inp (c : FatalCode) (v : Int) : (s.raise c v).inp = s.inp := rfl
@[simp] theorem raise_ip (c : FatalCode) (v : Int) : (s.raise c v).ip = s.ip := rfl
@[simp] theorem raise_out (c : FatalCode) (v : Int) : (s.raise c v).out = s.out := rfl

@[simp] theorem doHalt_cfg : (s.doHalt).cfg = s.cfg := rfl
@[simp] theorem doHalt_mem : (s.doHalt).mem = s.mem := rfl
@[simp] theorem doHalt_acc : (s.doHalt).acc = s.acc := rfl
@[simp] theorem doHalt_pc : (s.doHalt).pc = s.pc := rfl
@[simp] theorem doHalt_phase : (s.doHalt).phase = .halted := rfl
@[simp] theorem doHalt_fault : (s.doHalt).fault = s.fault := rfl
@[simp] theorem doHalt_lp : (s.doHalt).lp = s.lp := rfl
@[simp] theorem doHalt_inp : (s.doHalt).inp = s.inp := rfl
@[simp] theorem doHalt_ip : (s.doHalt).ip = s.ip := rfl
@[simp] theorem doHalt_out : (s.doHalt).out = s.out := rfl

@[simp] theorem enterRun_cfg : (s.enterRun).cfg = s.cfg := rfl
@[simp] theorem enterRun_mem : (s.enterRun).mem = s.mem := rfl
@[simp] theorem enterRun_acc : (s.enterRun).acc = s.acc := rfl
@[simp] theorem enterRun_pc : (s.enterRun).pc = s.pc := rfl
@[simp] theorem enterRun_phase : (s.enterRun).phase = .run := rfl
@[simp] theorem enterRun_fault : (s.enterRun).fault = s.fault := rfl
@[simp] theorem enterRun_lp : (s.enterRun).lp = s.lp := rfl
@[simp] theorem enterRun_inp : (s.enterRun).inp = s.inp := rfl
@[simp] theorem enterRun_ip : (s.enterRun).ip = s.ip := rfl
@[simp] theorem enterRun_out : (s.enterRun).out = s.out := rfl

@[simp] theorem bumpLp_cfg : (s.bumpLp).cfg = s.cfg := rfl
@[simp] theorem bumpLp_mem : (s.bumpLp).mem = s.mem := rfl
@[simp] theorem bumpLp_acc : (s.bumpLp).acc = s.acc := rfl
@[simp] theorem bumpLp_pc : (s.bumpLp).pc = s.pc := rfl
@[simp] theorem bumpLp_phase : (s.bumpLp).phase = s.phase := rfl
@[simp] theorem bumpLp_fault : (s.bumpLp).fault = s.fault := rfl
@[simp] theorem bumpLp_lp : (s.bumpLp).lp = s.lp + 1 := rfl
@[simp] theorem bumpLp_inp : (s.bumpLp).inp = s.inp := rfl
@[simp] theorem bumpLp_ip : (s.bumpLp).ip = s.ip := rfl
@[simp] theorem bumpLp_out : (s.bumpLp).out = s.out := rfl

@[simp] theorem sequence_cfg (target : Option Int) : (s.sequence target).cfg = s.cfg := rfl
@[simp] theorem sequence_mem (target : Option Int) : (s.sequence target).mem = s.mem := rfl
@[simp] theorem sequence_acc (target : Option Int) : (s.sequence target).acc = s.acc := rfl
@[simp] theorem sequence_pc (target : Option Int) : (s.sequence target).pc = nextPc s.pc target := rfl
@[simp] theorem sequence_phase (target : Option Int) : (s.sequence target).phase = s.phase := rfl
@[simp] theorem sequence_fault (target : Option Int) : (s.sequence target).fault = s.fault := rfl
@[simp] theorem sequence_lp (target : Option Int) : (s.sequence target).lp = s.lp := rfl
@[simp] theorem sequence_inp (target : Option Int) : (s.sequence target).inp = s.inp := rfl
@[simp] theorem sequence_ip (target : Option Int) : (s.sequence target).ip = s.ip := rfl
@[simp] theorem sequence_out (target : Option Int) : (s.sequence target).out = s.out := rfl

end Sys2Proof.Machine.State
end

