-- ==== Sys2Proof/Laws/Exec.lean ====
section
/-! SUPPORT. What each shared operation and each instruction can do, said once. -/

namespace Sys2Proof.Machine

theorem withOperand_valid {k : Nat} {s : State} (h : Valid s.cfg.n (k : Int))
    (f : State → Host.Outcome State Fault Refusal) : withOperand k s f = f s := if_pos h

theorem withOperand_invalid {k : Nat} {s : State} (h : ¬ Valid s.cfg.n (k : Int))
    (f : State → Host.Outcome State Fault Refusal) :
    withOperand k s f = .next (s.raise .invalidOperand (k : Int)) := if_neg h

/-- The token InNext answers as an integer is a supplied token that fits (00_scope R12, 10_state R29). -/
theorem State.inNext_int {s : State} {v : Int} (h : s.inNext = .int v) :
    s.inp[s.ip]? = some (.int v) ∧ Fits s.cfg.xlen v := by
  unfold State.inNext at h
  split at h
  · rename_i w hw
    split at h
    · rename_i hf
      cases h
      exact ⟨hw, hf⟩
    · cases h
  · cases h
  · cases h
  · cases h

/-- ADD, SUB and LOAD either write ACC and advance, or overflow in the checked mode. -/
theorem accumulate_cases (op : AluOp) (k : Nat) (s : State) :
    (∃ v, alu s.cfg op s.acc (s.mem.get k) = some v ∧
      accumulate op k s = .next ((s.setAcc v).sequence none)) ∨
    (alu s.cfg op s.acc (s.mem.get k) = none ∧
      accumulate op k s = .next (s.raise .arithmeticOverflow (s.mem.get k))) := by
  unfold accumulate State.memRead effectiveAddress
  cases h : alu s.cfg op s.acc (s.mem.get k) with
  | some v => exact .inl ⟨v, rfl, rfl⟩
  | none => exact .inr ⟨rfl, rfl⟩

theorem bringIn_wrap {cfg : Config} (h : cfg.ovf = .wrap) (z : Int) :
    bringIn cfg z = some (wrap cfg.xlen z) := by
  simp only [bringIn, h]

theorem bringIn_fits {cfg : Config} (h : cfg.ovf = .fault) {z : Int} (hz : Fits cfg.xlen z) :
    bringIn cfg z = some z := by
  simp only [bringIn, h]
  exact if_pos hz

theorem bringIn_not_fits {cfg : Config} (h : cfg.ovf = .fault) {z : Int} (hz : ¬ Fits cfg.xlen z) :
    bringIn cfg z = none := by
  simp only [bringIn, h]
  exact if_neg hz

theorem accumulate_some {op : AluOp} {k : Nat} {s : State} {v : Int}
    (h : alu s.cfg op s.acc (s.mem.get k) = some v) :
    accumulate op k s = .next ((s.setAcc v).sequence none) := by
  rcases accumulate_cases op k s with ⟨w, hw, he⟩ | ⟨hn, _⟩
  · rw [hw] at h
    cases h
    exact he
  · rw [hn] at h
    cases h

theorem accumulate_none {op : AluOp} {k : Nat} {s : State}
    (h : alu s.cfg op s.acc (s.mem.get k) = none) :
    accumulate op k s = .next (s.raise .arithmeticOverflow (s.mem.get k)) := by
  rcases accumulate_cases op k s with ⟨w, hw, _⟩ | ⟨_, he⟩
  · rw [hw] at h
    cases h
  · exact he

/-- Only the checked mode overflows, and only in ADD and SUB (42_arithmetic R109). -/
theorem alu_none {cfg : Config} {op : AluOp} {a m : Int} (h : alu cfg op a m = none) :
    cfg.ovf = .fault ∧ (op = .add ∨ op = .sub) := by
  cases op <;> cases ho : cfg.ovf <;> simp_all [alu, bringIn]

/-- What an instruction with a valid operand does to the state: it halts, it stops in its own fatal
error, or it changes the registers its rule names and advances or jumps. -/
inductive Effect (s : State) : Instr → State → Prop where
  | halt (k) : Effect s (.halt k) s.doHalt
  | add (k v) : alu s.cfg .add s.acc (s.mem.get k) = some v →
      Effect s (.add k) ((s.setAcc v).sequence none)
  | addOverflow (k) : alu s.cfg .add s.acc (s.mem.get k) = none →
      Effect s (.add k) (s.raise .arithmeticOverflow (s.mem.get k))
  | sub (k v) : alu s.cfg .sub s.acc (s.mem.get k) = some v →
      Effect s (.sub k) ((s.setAcc v).sequence none)
  | subOverflow (k) : alu s.cfg .sub s.acc (s.mem.get k) = none →
      Effect s (.sub k) (s.raise .arithmeticOverflow (s.mem.get k))
  | store (k) : Effect s (.store k) ((s.memWrite k s.acc).sequence none)
  | load (k) : Effect s (.load k) ((s.setAcc (s.mem.get k)).sequence none)
  | jump (k) : Effect s (.jump k) (s.sequence (some (k : Int)))
  | jzTaken (k) : s.acc = 0 → Effect s (.jz k) (s.sequence (some (k : Int)))
  | jzNotTaken (k) : s.acc ≠ 0 → Effect s (.jz k) (s.sequence none)
  | jpTaken (k) : 0 < s.acc → Effect s (.jp k) (s.sequence (some (k : Int)))
  | jpNotTaken (k) : ¬ 0 < s.acc → Effect s (.jp k) (s.sequence none)
  | input (k v) : s.inNext = .int v →
      Effect s (.input k) (((s.memWrite k v).consume).sequence none)
  | inputMalformed (k) : (∀ v, s.inNext ≠ .int v) → Effect s (.input k) (s.raise .malformedInput 0)
  | output (k) : Effect s (.output k) ((s.outEmit (s.mem.get k)).sequence none)

/-- Every instruction with a valid operand takes a next state, and it is the one of its effect. -/
theorem exec_effect (i : Instr) (s : State) (h : Valid s.cfg.n (i.operand : Int)) :
    ∃ t, exec i s = .next t ∧ Effect s i t := by
  cases i <;> simp only [Instr.operand] at h
  case halt k => exact ⟨_, by simp only [exec, execHalt, withOperand_valid h], .halt k⟩
  case add k =>
    rcases accumulate_cases .add k s with ⟨v, hv, he⟩ | ⟨hv, he⟩
    · exact ⟨_, by simp only [exec, execAdd, withOperand_valid h]; exact he, .add k v hv⟩
    · exact ⟨_, by simp only [exec, execAdd, withOperand_valid h]; exact he, .addOverflow k hv⟩
  case sub k =>
    rcases accumulate_cases .sub k s with ⟨v, hv, he⟩ | ⟨hv, he⟩
    · exact ⟨_, by simp only [exec, execSub, withOperand_valid h]; exact he, .sub k v hv⟩
    · exact ⟨_, by simp only [exec, execSub, withOperand_valid h]; exact he, .subOverflow k hv⟩
  case store k => exact ⟨_, by simp only [exec, execStore, withOperand_valid h]; rfl, .store k⟩
  case load k => exact ⟨_, by simp only [exec, execLoad, withOperand_valid h]; rfl, .load k⟩
  case jump k => exact ⟨_, by simp only [exec, execJump, withOperand_valid h]; rfl, .jump k⟩
  case jz k =>
    by_cases ha : s.acc = 0
    · exact ⟨_, by simp only [exec, execJz, withOperand_valid h, accIsZero, ha, jumpIf]; rfl,
        .jzTaken k ha⟩
    · exact ⟨_, by simp only [exec, execJz, withOperand_valid h, accIsZero, ha, jumpIf]; rfl,
        .jzNotTaken k ha⟩
  case jp k =>
    by_cases ha : 0 < s.acc
    · exact ⟨_, by simp only [exec, execJp, withOperand_valid h, accIsPositive, ha, jumpIf]; rfl,
        .jpTaken k ha⟩
    · exact ⟨_, by simp only [exec, execJp, withOperand_valid h, accIsPositive, ha, jumpIf]; rfl,
        .jpNotTaken k ha⟩
  case input k =>
    cases hn : s.inNext with
    | int v => exact ⟨_, by simp only [exec, execInput, withOperand_valid h, hn]; rfl, .input k v hn⟩
    | bad => exact ⟨_, by simp only [exec, execInput, withOperand_valid h, hn], .inputMalformed k (by simp [hn])⟩
    | eos => exact ⟨_, by simp only [exec, execInput, withOperand_valid h, hn], .inputMalformed k (by simp [hn])⟩
  case output k => exact ⟨_, by simp only [exec, execOutput, withOperand_valid h]; rfl, .output k⟩

/-- Every instruction whose operand is no address is InvalidOperand (40_cycle R84). -/
theorem exec_invalid (i : Instr) (s : State) (h : ¬ Valid s.cfg.n (i.operand : Int)) :
    exec i s = .next (s.raise .invalidOperand (i.operand : Int)) := by
  cases i <;> simp only [Instr.operand] at h ⊢ <;>
    simp only [exec, execHalt, execAdd, execSub, execStore, execLoad, execJump, execJz, execJp,
      execInput, execOutput, withOperand_invalid h]

end Sys2Proof.Machine
end

