-- ==== Sys2Proof/Laws/Memory.lean ====
section
/-! SUPPORT. Memory: reading after writing, and that a write keeps the canonical form and the bounds of
the cells (20_memory R43). -/

namespace Sys2Proof.Machine.Memory

@[simp] theorem get_nil (a : Nat) : Memory.get [] a = 0 := rfl

theorem above_cons {lo a : Nat} {v : Int} {m : Memory} :
    Memory.above lo ((a, v) :: m) = true ↔ lo < a ∧ Memory.above lo m = true := by
  simp [Memory.above]

theorem wf_cons {a : Nat} {v : Int} {m : Memory} :
    Memory.wf ((a, v) :: m) = true ↔ v ≠ 0 ∧ Memory.above a m = true ∧ Memory.wf m = true := by
  simp [Memory.wf, and_assoc]

theorem within_cons {n x a : Nat} {v : Int} {m : Memory} :
    Memory.within n x ((a, v) :: m) = true ↔ a < n ∧ Fits x v ∧ Memory.within n x m = true := by
  simp only [Memory.within, List.all_cons, Bool.and_eq_true, decide_eq_true_eq, and_assoc]

theorem above_mono {lo hi : Nat} (h : lo ≤ hi) {m : Memory} (hm : Memory.above hi m = true) :
    Memory.above lo m = true := by
  simp only [Memory.above, List.all_eq_true, decide_eq_true_eq] at *
  exact fun e he => lt_of_le_of_lt h (hm e he)

/-- A cell at or below a bound that every listed address is above reads as 0. -/
theorem get_of_above {lo : Nat} {m : Memory} (hm : Memory.above lo m = true) {a : Nat} (ha : a ≤ lo) :
    Memory.get m a = 0 := by
  induction m with
  | nil => rfl
  | cons e m ih =>
    obtain ⟨b, w⟩ := e
    obtain ⟨h1, h2⟩ := above_cons.mp hm
    rw [Memory.get, if_neg (by omega), ih h2]

theorem above_set {lo a : Nat} {v : Int} {m : Memory} (ha : lo < a) (hm : Memory.above lo m = true) :
    Memory.above lo (Memory.set m a v) = true := by
  induction m with
  | nil => unfold Memory.set; split <;> simp_all [Memory.above]
  | cons e m ih =>
    obtain ⟨b, w⟩ := e
    obtain ⟨h1, h2⟩ := above_cons.mp hm
    unfold Memory.set
    split_ifs <;> simp_all [above_cons]

/-- A write keeps the canonical form. -/
theorem wf_set {a : Nat} {v : Int} {m : Memory} (hm : Memory.wf m = true) :
    Memory.wf (Memory.set m a v) = true := by
  induction m with
  | nil => unfold Memory.set; split <;> simp_all [Memory.wf, Memory.above]
  | cons e m ih =>
    obtain ⟨b, w⟩ := e
    obtain ⟨h1, h2, h3⟩ := wf_cons.mp hm
    unfold Memory.set
    split_ifs with hab hv hab' hv
    · exact hm
    · exact wf_cons.mpr ⟨hv, above_cons.mpr ⟨hab, above_mono hab.le h2⟩, hm⟩
    · exact h3
    · exact wf_cons.mpr ⟨hv, hab' ▸ h2, h3⟩
    · exact wf_cons.mpr ⟨h1, above_set (by omega) h2, ih h3⟩

/-- A write of a word that fits to a cell that exists keeps the bounds. -/
theorem within_set {n x a : Nat} {v : Int} {m : Memory} (ha : a < n) (hv : Fits x v)
    (hm : Memory.within n x m = true) : Memory.within n x (Memory.set m a v) = true := by
  induction m with
  | nil =>
    unfold Memory.set
    split
    · rfl
    · exact within_cons.mpr ⟨ha, hv, rfl⟩
  | cons e m ih =>
    obtain ⟨b, w⟩ := e
    obtain ⟨h1, h2, h3⟩ := within_cons.mp hm
    unfold Memory.set
    split_ifs
    · exact hm
    · exact within_cons.mpr ⟨ha, hv, hm⟩
    · exact h3
    · exact within_cons.mpr ⟨ha, hv, h3⟩
    · exact within_cons.mpr ⟨h1, h2, ih h3⟩

/-- Every cell reads as a word of `Int_XLEN` (10_state R24). -/
theorem get_fits {n x : Nat} {m : Memory} (hm : Memory.within n x m = true) (a : Nat) :
    Fits x (Memory.get m a) := by
  induction m with
  | nil => exact fits_zero x
  | cons e m ih =>
    obtain ⟨b, w⟩ := e
    obtain ⟨_, h2, h3⟩ := within_cons.mp hm
    unfold Memory.get
    split
    · exact h2
    · exact ih h3

/-- A cell outside the `n` cells is not listed, so it reads as 0. -/
theorem get_outside {n x : Nat} {m : Memory} (hm : Memory.within n x m = true) {a : Nat} (ha : n ≤ a) :
    Memory.get m a = 0 := by
  induction m with
  | nil => rfl
  | cons e m ih =>
    obtain ⟨b, w⟩ := e
    obtain ⟨h1, _, h3⟩ := within_cons.mp hm
    rw [Memory.get, if_neg (by omega), ih h3]

/-- The cell written reads as the value written (20_memory R43, R48). -/
theorem get_set_same {m : Memory} (hm : Memory.wf m = true) (a : Nat) (v : Int) :
    Memory.get (Memory.set m a v) a = v := by
  induction m with
  | nil => unfold Memory.set; split <;> simp_all [Memory.get]
  | cons e m ih =>
    obtain ⟨b, w⟩ := e
    obtain ⟨h1, h2, h3⟩ := wf_cons.mp hm
    unfold Memory.set
    split_ifs with hab hv hab' hv
    · rw [hv, Memory.get, if_neg (by omega), get_of_above h2 (by omega)]
    · simp [Memory.get]
    · rw [hv]; exact get_of_above h2 (by omega)
    · simp [Memory.get]
    · rw [Memory.get, if_neg hab', ih h3]

/-- Every other cell keeps its content (20_memory R43), whatever the form of the list. -/
theorem get_set_other (m : Memory) {a c : Nat} (hc : c ≠ a) (v : Int) :
    Memory.get (Memory.set m a v) c = Memory.get m c := by
  induction m with
  | nil => unfold Memory.set; split <;> simp [Memory.get, hc]
  | cons e m ih =>
    obtain ⟨b, w⟩ := e
    unfold Memory.set
    split_ifs with hab hv hab' hv
    · rfl
    · simp [Memory.get, hc]
    · subst hab'; simp [Memory.get, hc]
    · subst hab'; simp [Memory.get, hc]
    · simp only [Memory.get, ih]

end Sys2Proof.Machine.Memory
end

