-- ==== Sys2Proof/Laws/PerInstr.lean ====
section
/-! SUPPORT. One lemma per instruction: its words are the hundred words of its row of the opcode table,
`word_lo = 100 * opcode` to `word_lo + 99` (30_encoding R64). -/

namespace Sys2Proof.Laws.EncodesInItsRow

/-- A well-formed instruction's word lies in the row of its opcode (30_encoding R64). -/
def Statement (i : Instr) : Prop :=
  ∀ n, WellFormed n i → 100 * i.opcode.code ≤ encode i ∧ encode i ≤ 100 * i.opcode.code + 99

theorem of_operand (i : Instr) : Statement i := by
  intro n h
  obtain ⟨h1, _⟩ := h
  unfold encode radix
  omega

theorem halt (k : Nat) : Statement (.halt k) := of_operand _
theorem add (k : Nat) : Statement (.add k) := of_operand _
theorem sub (k : Nat) : Statement (.sub k) := of_operand _
theorem store (k : Nat) : Statement (.store k) := of_operand _
theorem load (k : Nat) : Statement (.load k) := of_operand _
theorem jump (k : Nat) : Statement (.jump k) := of_operand _
theorem jz (k : Nat) : Statement (.jz k) := of_operand _
theorem jp (k : Nat) : Statement (.jp k) := of_operand _
theorem input (k : Nat) : Statement (.input k) := of_operand _
theorem output (k : Nat) : Statement (.output k) := of_operand _

end Sys2Proof.Laws.EncodesInItsRow
end

