-- ==== Sys2Proof/Laws/Step.lean ====
section
/-! SUPPORT. Everything one step can do, said once: one inversion lemma for the Loader's step, one for
the cycle and one for the machine. -/

namespace Sys2Proof.Machine

/-- What a Loader step does (70_reset R182). -/
inductive LoadEffect (s : State) : State → Prop where
  | malformed : (∀ v, s.inNext ≠ .int v) → LoadEffect s (s.raise .malformedInput 0)
  | sentinel : s.inNext = .int sentinel → LoadEffect s s.consume.enterRun
  | overflow (v) : s.inNext = .int v → v ≠ sentinel → s.cfg.n ≤ s.lp →
      LoadEffect s (s.raise .memoryOverflow v)
  | stored (v) : s.inNext = .int v → v ≠ sentinel → s.lp < s.cfg.n →
      LoadEffect s (((s.memWrite s.lp v).bumpLp).consume)

theorem loadStep_effect (s : State) : LoadEffect s (loadStep s) := by
  unfold loadStep
  cases hn : s.inNext with
  | bad => exact .malformed (by simp [hn])
  | eos => exact .malformed (by simp [hn])
  | int v =>
    dsimp only
    split_ifs with h1 h2
    · exact .sentinel (h1 ▸ hn)
    · exact .overflow v hn h1 h2
    · exact .stored v hn h1 (by omega)

/-- What a cycle does: a fatal error of step 1, 4 or 5, or the effect of the instruction fetched
(40_cycle R91). -/
inductive CycleEffect (s : State) : State → Prop where
  | pcOut : ¬ Valid s.cfg.n s.pc → CycleEffect s (s.raise .pcOutOfBounds s.pc)
  | badOperand : Valid s.cfg.n s.pc → ¬ Valid s.cfg.n (operandField s.fetch) →
      CycleEffect s (s.raise .invalidOperand (operandField s.fetch))
  | badOpcode : Valid s.cfg.n s.pc → Valid s.cfg.n (operandField s.fetch) →
      (opcodeField s.fetch < 0 ∨ 10 ≤ opcodeField s.fetch) →
      CycleEffect s (s.raise .invalidInstruction (opcodeField s.fetch))
  | instr (i t) : Valid s.cfg.n s.pc → decode s.cfg.n s.fetch = .ok i → exec i s = .next t →
      Effect s i t → CycleEffect s t

theorem cycle_effect (s : State) : ∃ t, cycle s = .next t ∧ CycleEffect s t := by
  unfold cycle
  split
  · rename_i hpc
    cases hd : decode s.cfg.n s.fetch with
    | ok i =>
      have hk := (decode_ok hd).2.2
      obtain ⟨t, ht, he⟩ := exec_effect i s (by constructor <;> omega)
      exact ⟨t, ht, .instr i t hpc hd ht he⟩
    | error r =>
      rcases decode_error hd with ⟨hv, rfl⟩ | ⟨hv, ho, rfl⟩
      · exact ⟨_, rfl, .badOperand hpc hv⟩
      · exact ⟨_, rfl, .badOpcode hpc hv ho⟩
  · rename_i hpc
    exact ⟨_, rfl, .pcOut hpc⟩

theorem step_load {s : State} (h : s.phase = .load) : step s = .next (loadStep s) := by
  simp [step, machineStep, h]

theorem step_run {s : State} (h : s.phase = .run) : step s = cycle s := by
  simp [step, machineStep, h]

/-- A step that answers a next state was a Loader step or a cycle. -/
theorem step_cases {s t : State} (h : step s = .next t) :
    (s.phase = .load ∧ LoadEffect s t) ∨ (s.phase = .run ∧ CycleEffect s t) := by
  cases hp : s.phase with
  | load =>
    rw [step_load hp] at h
    cases h
    exact .inl ⟨rfl, loadStep_effect s⟩
  | run =>
    rw [step_run hp] at h
    obtain ⟨u, hu, he⟩ := cycle_effect s
    rw [hu] at h
    cases h
    exact .inr ⟨rfl, he⟩
  | halted => simp [step, machineStep, hp] at h
  | faulted => simp [step, machineStep, hp] at h

/-- `steps` is the host's own run of the machine. -/
theorem steps_eq_core_run (k : Nat) (s : State) : steps k s = Host.Core.run Sys2Proof.core k s := by
  induction k generalizing s with
  | zero => rfl
  | succ k ih =>
    have hc : Sys2Proof.core.step s = step s := rfl
    simp only [steps, Host.Core.run]
    cases hs : step s with
    | next t => rw [hc, hs]; exact ih t
    | fault r => rw [hc, hs]; rfl
    | refused r => rw [hc, hs]; rfl

theorem steps_succ {k : Nat} {s t : State} (h : step s = .next t) : steps (k + 1) s = steps k t := by
  simp only [steps, h]

end Sys2Proof.Machine
end

