-- ==== Sys2Proof/Tests/Slice0.lean ====
section
/-! SUPPORT. The model's own tests. Expected results come from spec/95_test_vectors.md (the vector is
named at each test) or from the opcode table of 30_encoding R64; none is the model's own answer. The
last part holds one witness for the hypotheses of each statement that has some. -/

namespace Sys2Proof.Tests

open Sys2Proof Sys2Proof.Machine Sys2Proof.Claims

/-- The Engine running at `pc` with `acc` on the cells `m` and the stream `inp`, at the defaults. -/
def cpu (pc acc : Int) (m : Memory) (inp : List Token) : State :=
  { State.launch Config.default m inp with pc := pc, acc := acc }

/-- The same with N = 16. -/
def cpu16 (pc acc : Int) (m : Memory) : State :=
  { State.launch { Config.default with n := 16 } m [] with pc := pc, acc := acc }

/-- The same in the checked mode. -/
def checked (pc acc : Int) (m : Memory) : State :=
  { State.launch { Config.default with ovf := .fault } m [] with pc := pc, acc := acc }

/-- The next state of an outcome, if it is one. -/
def after (o : Host.Outcome State Fault Refusal) : Option State :=
  match o with
  | .next t => some t
  | .fault _ => none
  | .refused _ => none

/-- One view of the state one step leaves. -/
def look {α : Type} (s : State) (f : State → α) : Option α := (after (step s)).map f

/-! ### Well-formedness: one ill-formed term for each check -/

theorem test_wellformed_last_operand : WellFormed 256 (.add 99) := by decide
theorem test_illformed_three_digits : ¬ WellFormed 256 (.add 100) := by decide
theorem test_illformed_outside_memory : ¬ WellFormed 16 (.halt 16) := by decide

/-! ### Decoding: words written out from the table, one or more for each constructor -/

theorem test_decode_halt : decode 256 57 = .ok (.halt 57) := by rfl        -- V-E2
theorem test_decode_add : decode 256 199 = .ok (.add 99) := by rfl         -- V-E5
theorem test_decode_sub : decode 256 203 = .ok (.sub 3) := by rfl          -- P4
theorem test_decode_store : decode 256 302 = .ok (.store 2) := by rfl      -- P3
theorem test_decode_load : decode 256 404 = .ok (.load 4) := by rfl        -- P3
theorem test_decode_jump : decode 256 509 = .ok (.jump 9) := by rfl        -- P2
theorem test_decode_jz : decode 256 609 = .ok (.jz 9) := by rfl            -- P2
theorem test_decode_jp : decode 256 703 = .ok (.jp 3) := by rfl            -- P2
theorem test_decode_input : decode 256 811 = .ok (.input 11) := by rfl     -- P1
theorem test_decode_output : decode 256 901 = .ok (.output 1) := by rfl    -- V-E6
theorem test_decode_first_row_ends : decode 256 99 = .ok (.halt 99) ∧
    decode 256 100 = .ok (.add 0) := ⟨rfl, rfl⟩                            -- V-E3, V-E4
theorem test_decode_last_row_ends : decode 256 999 = .ok (.output 99) ∧
    decode 256 1000 = .error (.invalidInstruction 10) := ⟨rfl, rfl⟩        -- V-E7, V-E8
theorem test_decode_small_memory : decode 16 115 = .ok (.add 15) ∧
    decode 16 116 = .error (.invalidOperand 16) ∧
    decode 16 1016 = .error (.invalidOperand 16) := ⟨rfl, rfl, rfl⟩        -- V-E12, V-E13, V-E20
theorem test_decode_negative : decode 256 (-1) = .error (.invalidOperand (-1)) ∧
    decode 256 (-100) = .error (.invalidInstruction (-1)) ∧
    decode 256 (-2147483600) = .error (.invalidInstruction (-21474836)) :=
  ⟨rfl, rfl, rfl⟩                                                          -- V-E10, V-E15, V-E17
theorem test_table_word_of_bits : decodeTableWord 16 703 = some (.jp 3) := by rfl
theorem test_table_word_negative : decodeTableWord 32 4294967295 = none := by rfl  -- the word -1, V-E10

/-! ### The instructions, at most two each -/

theorem test_halt : look (cpu 1 3 [] []) (fun t => (t.phase, t.pc, t.acc)) =
    some (.halted, 1, 3) := by decide                                      -- V-H1
theorem test_add_own_word : look (cpu 5 1 [(5, 105)] []) (fun t => (t.acc, t.pc)) =
    some (106, 6) := by decide                                             -- V-A5
theorem test_add_wraps : look (cpu 0 2147483647 [(0, 111), (11, 1)] []) (fun t => (t.acc, t.pc)) =
    some (-2147483648, 1) := by decide                                     -- V-A2
theorem test_sub_order : look (cpu 0 3 [(0, 210), (10, 1)] []) (fun t => (t.acc, t.pc)) =
    some (2, 1) := by decide                                               -- V-A7
theorem test_sub_checked : look (checked 0 (-2147483648) [(0, 210), (10, 1)])
    (fun t => (t.fault, t.acc, t.pc)) =
    some (some ⟨.arithmeticOverflow, 1⟩, -2147483648, 0) := by decide      -- V-A8f
theorem test_store : look (cpu 5 2 [(5, 311)] []) (fun t => (t.mem.get 11, t.acc, t.pc)) =
    some (2, 2, 6) := by decide                                            -- V-M1
theorem test_store_over_itself : look (cpu 5 (-1) [(5, 305)] []) (fun t => (t.mem.get 5, t.pc, t.phase)) =
    some (-1, 6, .run) := by decide                                        -- V-M3
theorem test_load : look (cpu 1 9 [(1, 411), (11, 3)] []) (fun t => (t.acc, t.pc)) =
    some (3, 2) := by decide                                               -- V-M4
theorem test_jump : look (cpu 99 5 [(99, 500)] []) (fun t => (t.pc, t.acc)) = some (0, 5) := by decide  -- V-J11
theorem test_jz_taken : look (cpu 2 0 [(2, 609)] []) State.pc = some 9 := by decide      -- V-J3
theorem test_jz_not_taken : look (cpu 255 1 [(255, 600)] []) State.pc = some 256 := by decide  -- V-J12
theorem test_jp_taken : look (cpu 6 2 [(6, 703)] []) State.pc = some 3 := by decide      -- V-J6
theorem test_jp_not_at_zero : look (cpu 6 0 [(6, 703)] []) State.pc = some 7 := by decide  -- V-J7
theorem test_input : look { cpu 0 0 [(0, 810)] [.int 5, .int 6, .int 7] with ip := 1 }
    (fun t => (t.mem.get 10, t.ip, t.pc)) = some (6, 2, 1) := by decide    -- V-I9
theorem test_input_at_end : look (cpu 0 0 [(0, 810)] []) (fun t => (t.fault, t.ip, t.pc)) =
    some (some ⟨.malformedInput, 0⟩, 0, 0) := by decide                    -- V-I4
theorem test_output : look (cpu 5 0 [(5, 912), (12, -40)] []) (fun t => (t.out, t.pc)) =
    some ([-40], 6) := by decide                                           -- V-I8

/-! ### The cycle's own errors and the Loader -/

theorem test_pc_out_of_bounds : look (cpu 256 3 [] []) (fun t => (t.fault, t.pc, t.acc)) =
    some (some ⟨.pcOutOfBounds, 256⟩, 256, 3) := by decide                 -- V-X1
theorem test_operand_before_opcode : look (cpu 0 0 [(0, -109)] []) State.fault =
    some (some ⟨.invalidOperand, -9⟩) := by decide                         -- V-X4
theorem test_invalid_instruction : look (cpu 0 6 [(0, 9999)] []) (fun t => (t.fault, t.acc, t.pc)) =
    some (some ⟨.invalidInstruction, 99⟩, 6, 0) := by decide               -- V-X5
theorem test_halt_operand_checked : look (cpu16 0 0 [(0, 16)]) State.fault =
    some (some ⟨.invalidOperand, 16⟩) := by decide                         -- V-E18
theorem test_loader_stores : look (State.resetWith Config.default [.int (-5)])
    (fun t => (t.mem.get 0, t.lp, t.ip)) = some (-5, 1, 1) := by decide    -- V-L9
theorem test_loader_sentinel : look (State.resetWith Config.default [.int (-1)])
    (fun t => (t.phase, t.lp, t.ip)) = some (.run, 0, 1) := by decide      -- V-L2
theorem test_loader_bad : look (State.resetWith Config.default [.bad])
    (fun t => (t.fault, t.ip)) = some (some ⟨.malformedInput, 0⟩, 0) := by decide  -- V-L3
theorem test_fetch_word_runs : look (State.reset.withFetchWord 16 512) State.pc = some 12 := by decide

/-! ### Memory keeps its canonical form -/

theorem test_memory_write_zero_removes : Memory.set [(3, 7), (5, 1)] 3 0 = [(5, 1)] := by decide
theorem test_memory_unsorted_is_not_wf : Memory.wf [(5, 1), (3, 7)] = false := by decide
theorem test_reset_memory_wf : State.reset.mem.wf = true := by decide

/-! ### Witnesses: for each statement, a concrete state that meets its hypotheses, each clause at a
boundary of its range -/

theorem witness_HaltStopsSuccessfully :
    Valid (cpu 0 0 [] []).cfg.n (255 : Nat) ∧ ¬ Valid (cpu 0 0 [] []).cfg.n (256 : Nat) ∧
    ((99 : Nat) < 100 ∧ (99 : Nat) < 256) ∧ (-99 ≤ (-1 : Int) ∧ ¬ Valid 256 (-1)) ∧
    ((16 : Int) ≤ 99 ∧ ¬ Valid 16 16) ∧ Config.default.Wf := by decide

theorem witness_AddAddsTheCellToAcc :
    let s := cpu 0 2147483647 [(11, 1)] []
    let c := checked 0 2147483646 [(11, 1), (12, 2)]
    (Valid s.cfg.n (11 : Nat) ∧ s.cfg.ovf = .wrap) ∧
    (Valid c.cfg.n (11 : Nat) ∧ c.cfg.ovf = .fault ∧ Fits c.cfg.xlen (c.acc + c.mem.get 11)) ∧
    (Valid c.cfg.n (12 : Nat) ∧ c.cfg.ovf = .fault ∧ ¬ Fits c.cfg.xlen (c.acc + c.mem.get 12)) ∧
    ¬ Valid s.cfg.n (256 : Nat) := by decide

theorem witness_SubSubtractsTheCellFromAcc :
    let s := cpu 0 (-2147483648) [(10, 1)] []
    let c := checked 0 (-2147483647) [(10, 1), (12, 2)]
    (Valid s.cfg.n (10 : Nat) ∧ s.cfg.ovf = .wrap) ∧
    (Valid c.cfg.n (10 : Nat) ∧ c.cfg.ovf = .fault ∧ Fits c.cfg.xlen (c.acc - c.mem.get 10)) ∧
    (Valid c.cfg.n (12 : Nat) ∧ c.cfg.ovf = .fault ∧ ¬ Fits c.cfg.xlen (c.acc - c.mem.get 12)) ∧
    ¬ Valid s.cfg.n (256 : Nat) := by decide

theorem witness_StoreWritesTheOneCell :
    let s := cpu 5 2 [(5, 311)] []
    Valid s.cfg.n (255 : Nat) ∧ s.mem.wf = true ∧ (5 : Nat) ≠ 255 ∧ ¬ Valid s.cfg.n (256 : Nat) := by
  decide

theorem witness_LoadCopiesTheCellToAcc :
    Valid (cpu 1 9 [] []).cfg.n (0 : Nat) ∧ ¬ Valid (cpu16 1 9 []).cfg.n (16 : Nat) := by decide

theorem witness_JumpSetsPcToTheOperand :
    Valid (cpu16 7 5 []).cfg.n (15 : Nat) ∧ ¬ Valid (cpu16 7 5 []).cfg.n (16 : Nat) := by decide

theorem witness_JzJumpsExactlyWhenAccIsZero :
    (Valid (cpu 2 0 [] []).cfg.n (9 : Nat) ∧ (cpu 2 0 [] []).acc = 0) ∧
    (Valid (cpu 2 (-1) [] []).cfg.n (9 : Nat) ∧ (cpu 2 (-1) [] []).acc ≠ 0) ∧
    ¬ Valid (cpu 2 0 [] []).cfg.n (256 : Nat) := by decide

theorem witness_JpJumpsExactlyWhenAccIsPositive :
    (Valid (cpu 6 1 [] []).cfg.n (3 : Nat) ∧ 0 < (cpu 6 1 [] []).acc) ∧
    (Valid (cpu 6 0 [] []).cfg.n (3 : Nat) ∧ (cpu 6 0 [] []).acc ≤ 0) ∧
    ¬ Valid (cpu 6 0 [] []).cfg.n (256 : Nat) := by decide

theorem witness_InputStoresTheNextInteger :
    (Valid (cpu 0 0 [] [.int 2147483647]).cfg.n (10 : Nat) ∧
      nextIs (cpu 0 0 [] [.int 2147483647]) 2147483647) ∧
    (∀ v, ¬ nextIs (cpu 0 0 [] [.bad]) v) ∧ (∀ v, ¬ nextIs (cpu 0 0 [] []) v) ∧
    (∀ v, ¬ nextIs (cpu 0 0 [] [.int 2147483648]) v) ∧
    ¬ Valid (cpu 0 0 [] []).cfg.n (256 : Nat) := by
  refine ⟨by decide, ?_, ?_, ?_, by decide⟩
  · rintro v ⟨h, _⟩
    cases h
  · rintro v ⟨h, _⟩
    cases h
  · rintro v ⟨h, hf⟩
    cases h
    exact absurd hf (by decide)

theorem witness_OutputEmitsTheCell :
    Valid (cpu 5 0 [] []).cfg.n (12 : Nat) ∧ ¬ Valid (cpu 5 0 [] []).cfg.n (256 : Nat) := by decide

/-- A STORE, an ADD and a HALT that each answer a next state: the premise of the frames. -/
theorem witness_MemoryFrameOfEveryInstruction :
    (∃ t, exec (.store 11) (cpu 5 2 [] []) = .next t) ∧ (∃ t, exec (.add 11) (cpu 5 2 [] []) = .next t) :=
  ⟨⟨_, rfl⟩, ⟨_, rfl⟩⟩

theorem witness_RegisterFrameOfEveryInstruction :
    (∃ t, exec (.halt 0) (cpu 5 2 [] []) = .next t ∧ t.phase ≠ .faulted) ∧
    (∃ t, exec (.input 0) (cpu 5 2 [] [.int 1]) = .next t ∧ t.phase ≠ .faulted) :=
  ⟨⟨_, rfl, by decide⟩, ⟨_, rfl, by decide⟩⟩

theorem witness_OnlyTheTabledInstructionsUseAcc :
    (∃ t, exec (.input 3) (cpu 5 2 [] [.int 1]) = .next t) ∧ Valid (cpu 5 2 [] []).cfg.n (255 : Nat) ∧
    ((State.resetWith Config.default [.int 1]).phase = .load ∧
      ∃ t, step (State.resetWith Config.default [.int 1]) = .next t) :=
  ⟨⟨_, rfl⟩, by decide, rfl, _, rfl⟩

theorem witness_WrapIsTheUniqueResidue :
    1 ≤ 32 ∧ Fits 32 (-2147483648) ∧ modulus 32 ∣ -2147483648 - 2147483648 := by decide

theorem witness_OverflowWrapsByOneModulus :
    let s := cpu 0 2147483647 [(11, 2147483647)] []
    s.cfg.Wf ∧ s.cfg.ovf = .wrap ∧ Valid s.cfg.n (11 : Nat) ∧ Fits s.cfg.xlen s.acc ∧
      Fits s.cfg.xlen (s.mem.get 11) := by decide

theorem witness_CheckedModeRaisesOrIsExact :
    let s := checked 0 2147483647 [(11, 1), (12, -1)]
    s.cfg.Wf ∧ Valid s.cfg.n (11 : Nat) ∧ s.cfg.ovf = .fault ∧
      ¬ Fits s.cfg.xlen (s.acc + s.mem.get 11) ∧ Fits s.cfg.xlen (s.acc - s.mem.get 11) ∧
      Fits s.cfg.xlen (s.acc + s.mem.get 12) ∧ ¬ Fits s.cfg.xlen (s.acc - s.mem.get 12) := by decide

theorem witness_AddThenSubRestoresAcc :
    let s := cpu 0 2147483647 [(11, 1)] []
    s.cfg.Wf ∧ s.cfg.ovf = .wrap ∧ Valid s.cfg.n (11 : Nat) ∧ Fits s.cfg.xlen s.acc ∧
      (after (exec (.add 11) s)).isSome = true := by decide

theorem witness_DecodeOfEncodeIsTheInstruction :
    (Instr.halt 99).operand < 100 ∧ WellFormed 256 (.output 99) ∧ WellFormed 16 (.jump 15) := by decide

theorem witness_EncodeOfDecodeIsTheWord : decode 256 0 = .ok (.halt 0) := by rfl

/-- One word for each class, at the boundaries of the classes (30_encoding R65). -/
theorem witness_EveryWordFallsInItsClass :
    ((-1 : Int) < 0 ∧ Int.tmod (-1) 100 ≠ 0) ∧ ((0 : Int) ≤ 16 ∧ (16 : Int) ≤ Int.tmod 16 100) ∧
    ((-100 : Int) < 0 ∧ Int.tmod (-100) 100 = 0) ∧ ((999 : Int) ≤ 999 ∧ Int.tmod 999 100 < 256) ∧
    ((1000 : Int) ≤ 1000 ∧ Int.tmod 1000 100 < 256) := by decide

theorem witness_StepRunsTheDecodedInstruction :
    let s := cpu 255 0 [(255, 600)] []
    s.phase = .run ∧ Valid s.cfg.n s.pc ∧ decode s.cfg.n (s.mem.get s.pc.toNat) = .ok (.jz 0) :=
  ⟨rfl, by decide, rfl⟩

/-- A reachable PC outside Memory: N = 1 and the one cell holds ADD 0. -/
theorem witness_InvalidPcIsFatal :
    ((cpu 256 3 [] []).phase = .run ∧ ¬ Valid (cpu 256 3 [] []).cfg.n (cpu 256 3 [] []).pc) ∧
    ∃ (cfg : Config) (inp : List Token) (s : State), cfg.Wf ∧ Reachable cfg inp s ∧ ¬ Valid cfg.n s.pc :=
  ⟨by decide, { Config.default with n := 1 }, [.int 100, .int (-1)], _, by decide,
    .step _ _ (.step _ _ (.step _ _ .reset rfl) rfl) rfl, by decide⟩

theorem inv_of_sample (s : State) (h : s.cfg.Wf ∧ s.mem.wf = true ∧
    s.mem.within s.cfg.n s.cfg.xlen = true ∧ Fits s.cfg.xlen s.acc ∧
    (0 ≤ s.pc ∧ s.pc ≤ (s.cfg.n : Int)) ∧ s.lp ≤ s.cfg.n ∧ s.ip ≤ s.inp.length ∧ s.out = [] ∧
    s.fault = none ∧ s.phase = .run) : s.Inv := by
  obtain ⟨h1, h2, h3, h4, h5, h6, h7, h8, h9, h10⟩ := h
  exact ⟨h1, h2, h3, h4, h5, h6, h7, by simp [h8], by simp [h9, h10], by simp [h10]⟩

theorem witness_PcLeavesMemoryOnlyAtItsEnd :
    let s := cpu 255 1 [(255, 600)] []
    s.Inv ∧ s.phase = .run ∧ ∃ t, step s = .next t ∧ t.phase = .run ∧ ¬ Valid t.cfg.n t.pc :=
  ⟨inv_of_sample _ (by decide), rfl, _, rfl, rfl, by decide⟩

theorem witness_InvalidOperandIsFatalWhateverTheOpcode :
    let s := cpu 0 0 [(0, -109)] []
    s.phase = .run ∧ Valid s.cfg.n s.pc ∧ ¬ Valid s.cfg.n (Int.tmod (s.mem.get s.pc.toNat) 100) := by
  decide

theorem witness_UnknownOpcodeIsFatal :
    let s := cpu 0 0 [(0, 1000)] []
    let u := cpu 0 0 [(0, -100)] []
    (s.phase = .run ∧ Valid s.cfg.n s.pc ∧ Valid s.cfg.n (Int.tmod (s.mem.get s.pc.toNat) 100) ∧
      10 ≤ Int.tdiv (s.mem.get s.pc.toNat) 100) ∧
    (u.phase = .run ∧ Valid u.cfg.n u.pc ∧ Valid u.cfg.n (Int.tmod (u.mem.get u.pc.toNat) 100) ∧
      Int.tdiv (u.mem.get u.pc.toNat) 100 < 0) := by decide

theorem witness_PcAfterEachCycle :
    (executes (cpu 255 0 [(255, 600)] []) (.jz 0) ∧
      ∃ t, step (cpu 255 0 [(255, 600)] []) = .next t ∧ t.phase ≠ .faulted) ∧
    (∃ t, step (cpu 256 0 [] []) = .next t ∧ t.phase = .faulted) :=
  ⟨⟨⟨rfl, by decide, rfl⟩, _, rfl, by decide⟩, _, rfl, rfl⟩

theorem witness_SmallWordsHalt :
    let s := cpu 4 0 [(4, 99)] []
    s.phase = .run ∧ 100 ≤ s.cfg.n ∧ Valid s.cfg.n s.pc ∧ 0 ≤ s.mem.get s.pc.toNat ∧
      s.mem.get s.pc.toNat ≤ 99 := by decide

theorem witness_EveryCycleEndsInOneOfThreeWays :
    (cpu 0 0 [] []).phase = .run ∧ (State.resetWith Config.default []).phase = .load := by decide

theorem witness_TerminalPhasesTakeNoStep :
    ({ cpu 0 0 [] [] with phase := .halted } : State).phase = .halted ∧
    ({ cpu 0 0 [] [] with phase := .faulted } : State).phase = .faulted := by decide

/-- A Loader step, a HALT and a fatal error: the premise of the statements about every step. -/
theorem witness_OnlyTheseEventsChangeThePhase :
    (∃ t, step (State.resetWith Config.default [.int (-1)]) = .next t ∧ t.phase = .run) ∧
    (∃ t, step (cpu 0 0 [] []) = .next t ∧ t.phase = .halted) ∧
    (∃ t, step (cpu 256 0 [] []) = .next t ∧ t.phase = .faulted) :=
  ⟨⟨_, rfl, rfl⟩, ⟨_, rfl, rfl⟩, ⟨_, rfl, rfl⟩⟩

theorem witness_FatalErrorsArePrecise :
    ∃ t, step (cpu 0 4 [(0, 810)] [.bad]) = .next t ∧ t.phase = .faulted := ⟨_, rfl, rfl⟩

/-- One step for each code of the table (60_exceptions R150). -/
theorem witness_FatalErrorsFollowTheTable :
    (∃ t, step (cpu 0 0 [(0, 810)] []) = .next t ∧ t.fault = some ⟨.malformedInput, 0⟩) ∧
    (∃ t, step { State.resetWith { Config.default with n := 1 } [.int 7, .int 5] with lp := 1, ip := 1 } =
      .next t ∧ t.fault = some ⟨.memoryOverflow, 5⟩) ∧
    (∃ t, step (cpu 0 0 [(0, -1)] []) = .next t ∧ t.fault = some ⟨.invalidOperand, -1⟩) ∧
    (∃ t, step (cpu 256 0 [] []) = .next t ∧ t.fault = some ⟨.pcOutOfBounds, 256⟩) ∧
    (∃ t, step (cpu 0 0 [(0, 1000)] []) = .next t ∧ t.fault = some ⟨.invalidInstruction, 10⟩) ∧
    (∃ t, step (checked 0 2147483647 [(0, 111), (11, 1)]) = .next t ∧
      t.fault = some ⟨.arithmeticOverflow, 1⟩) :=
  ⟨⟨_, rfl, rfl⟩, ⟨_, rfl, rfl⟩, ⟨_, rfl, rfl⟩, ⟨_, rfl, rfl⟩, ⟨_, rfl, rfl⟩, ⟨_, rfl, rfl⟩⟩

theorem witness_ExitStatusFollowsThePhase :
    ({ cpu 0 0 [] [] with phase := .halted } : State).phase = .halted ∧
    ({ cpu 0 0 [] [] with phase := .faulted } : State).phase = .faulted ∧
    Config.default.Wf ∧ (cpu 0 0 [] []).phase = .run := by decide

theorem witness_EveryStepKeepsTheInvariant :
    let s := cpu 0 (-2147483648) [(0, 210), (10, 1)] []
    s.Inv ∧ ∃ t, step s = .next t := ⟨inv_of_sample _ (by decide), _, rfl⟩

theorem witness_ResetHasTheInvariant : ({ Config.default with n := 1, xlen := 11 } : Config).Wf := by decide

theorem witness_EngineLaunchState :
    Config.default.Wf ∧ Memory.wf [(0, 100), (255, -1)] = true ∧
    Memory.within 256 32 [(0, 100), (255, -1)] = true := by decide

theorem witness_ReachablePcIsZeroToN :
    Config.default.Wf ∧ ∃ s, Reachable Config.default [.int (-1)] s ∧ s.phase = .run :=
  ⟨by decide, _, .step _ _ .reset rfl, rfl⟩

theorem witness_ParametersAndStreamAreFixed : ∃ t, step (cpu 0 0 [] [.int 3]) = .next t := ⟨_, rfl⟩

theorem witness_InputPositionMovesOnlyOnATakenInteger :
    (∃ t, step (cpu 0 0 [(0, 810)] [.int (-1)]) = .next t ∧ t.ip = 1) ∧
    (∃ t, step (cpu 0 0 [(0, 810)] [.bad]) = .next t ∧ t.ip = 0) := ⟨⟨_, rfl, rfl⟩, ⟨_, rfl, rfl⟩⟩

theorem witness_OutputGrowsByEachOutputExecuted :
    executes (cpu 5 0 [(5, 905)] []) (.output 5) ∧ ∃ t, step (cpu 5 0 [(5, 905)] []) = .next t :=
  ⟨⟨rfl, by decide, rfl⟩, _, rfl⟩

theorem witness_ProgramsCannotReadLoadPointerOrOutput :
    (cpu 5 0 [(5, 905)] []).phase = .run ∧ ∃ t, step (cpu 5 0 [(5, 905)] []) = .next t := ⟨rfl, _, rfl⟩

/-- A Loader state for each clause, the room test at its boundary LP = N and LP = N - 1. -/
theorem witness_LoaderStep :
    let c1 : Config := { Config.default with n := 1 }
    (∀ v, ¬ nextIs (State.resetWith c1 []) v) ∧ nextIs (State.resetWith c1 [.int (-1)]) (-1) ∧
    (nextIs { State.resetWith c1 [.int 7, .int 5] with lp := 1, ip := 1 } 5 ∧
      ({ State.resetWith c1 [.int 7, .int 5] with lp := 1, ip := 1 } : State).phase = .load) ∧
    (nextIs (State.resetWith c1 [.int 7]) 7 ∧ (State.resetWith c1 [.int 7]).lp < c1.n) := by
  refine ⟨?_, by decide, by decide, by decide⟩
  rintro v ⟨h, _⟩
  cases h

theorem witness_NormalLoadLeavesTheLaunchMemory :
    Config.default.Wf ∧ [410, 111, 312, 0, 7].length ≤ Config.default.n ∧
    ∀ v ∈ ([410, 111, 312, 0, 7] : List Int), v ≠ -1 ∧ Fits Config.default.xlen v := by decide

theorem witness_OneIntegerTooManyIsMemoryOverflow :
    let c4 : Config := { Config.default with n := 4 }
    c4.Wf ∧ ([1, 2, 3, 4] : List Int).length = c4.n ∧
    (∀ w ∈ ([1, 2, 3, 4] : List Int), w ≠ -1 ∧ Fits c4.xlen w) ∧ (5 : Int) ≠ -1 ∧ Fits c4.xlen 5 := by
  decide

theorem witness_MalformedLoadKeepsWhatWasLoaded :
    let c4 : Config := { Config.default with n := 4 }
    c4.Wf ∧ ([1, 2, 3, 4] : List Int).length ≤ c4.n ∧
    (∀ w ∈ ([1, 2, 3, 4] : List Int), w ≠ -1 ∧ Fits c4.xlen w) ∧
    (∀ v, ([] : List Token).head? ≠ some (.int v)) ∧ (∀ v, [Token.bad].head? ≠ some (.int v)) :=
  ⟨by decide, by decide, by decide, by simp, by simp⟩

theorem witness_LoadingStatesHoldTheIntegersRead :
    Config.default.Wf ∧ ∃ s, Reachable Config.default [.int 100, .bad] s ∧ s.phase = .load ∧ s.lp = 1 :=
  ⟨by decide, _, .step _ _ .reset rfl, rfl, rfl⟩

theorem witness_StoreLoadRoundTripAndLoadIdempotence :
    let u := cpu 98 77 [(98, 499), (99, 499)] []
    let r := cpu 97 77 [(97, 399), (98, 499)] []
    (r.Inv ∧ r.phase = .run ∧ Valid r.cfg.n r.pc ∧ Valid r.cfg.n (r.pc + 1) ∧
      r.mem.get r.pc.toNat = 300 + (99 : Nat) ∧ r.mem.get (r.pc + 1).toNat = 400 + (99 : Nat) ∧
      ((99 : Nat) : Int) ≠ r.pc + 1) ∧
    (u.phase = .run ∧ u.mem.get u.pc.toNat = 400 + (99 : Nat) ∧
      u.mem.get (u.pc + 1).toNat = 400 + (99 : Nat)) :=
  ⟨⟨inv_of_sample _ (by decide), by decide⟩, by decide⟩

theorem witness_WritesAreSeenByTheNextFetch :
    let s := cpu 5 77 [(5, 306), (6, 411)] []
    let u := cpu 3 0 [(3, 804)] [.int 912]
    (s.Inv ∧ s.phase = .run ∧ Valid s.cfg.n s.pc ∧ s.mem.get s.pc.toNat = 300 + (6 : Nat) ∧
      ((6 : Nat) : Int) = s.pc + 1 ∧ decode s.cfg.n s.acc = .ok (.halt 77)) ∧
    (u.Inv ∧ nextIs u 912 ∧ u.mem.get u.pc.toNat = 800 + (4 : Nat) ∧ ((4 : Nat) : Int) = u.pc + 1 ∧
      decode u.cfg.n 912 = .ok (.output 12)) :=
  ⟨⟨inv_of_sample _ (by decide), by decide, by decide, by decide, by decide, rfl⟩,
    inv_of_sample _ (by decide), by decide, by decide, by decide, rfl⟩

theorem witness_HighCellsAreWrittenByTheLoaderOnly :
    (cpu 0 0 [(0, 399)] []).phase = .run ∧ (100 : Nat) ≤ 100 ∧
    ∃ t, step (cpu 0 0 [(0, 399)] []) = .next t := ⟨rfl, by decide, _, rfl⟩

end Sys2Proof.Tests
end

section
/-! What each field of State holds right after reset, row by row of the table of 10_state R33; beside them
the parameters and the input stream, which reset takes as they are given (00_scope R8). -/

namespace Sys2Proof.Machine.State

variable (cfg : Config) (inp : List Token)

@[simp] theorem resetWith_cfg : (resetWith cfg inp).cfg = cfg := rfl
@[simp] theorem resetWith_mem : (resetWith cfg inp).mem = [] := rfl
@[simp] theorem resetWith_acc : (resetWith cfg inp).acc = 0 := rfl
@[simp] theorem resetWith_pc : (resetWith cfg inp).pc = 0 := rfl
@[simp] theorem resetWith_phase : (resetWith cfg inp).phase = .load := rfl
@[simp] theorem resetWith_fault : (resetWith cfg inp).fault = none := rfl
@[simp] theorem resetWith_lp : (resetWith cfg inp).lp = 0 := rfl
@[simp] theorem resetWith_inp : (resetWith cfg inp).inp = inp := rfl
@[simp] theorem resetWith_ip : (resetWith cfg inp).ip = 0 := rfl
@[simp] theorem resetWith_out : (resetWith cfg inp).out = [] := rfl

/-- Reset leaves Memory with no entry, and an address without one reads as 0 (10_state R24, R33). -/
theorem resetWith_mem_get (a : Nat) : (resetWith cfg inp).mem.get a = 0 := by
  rw [resetWith_mem, Memory.get_nil]

end Sys2Proof.Machine.State
end

section
namespace Sys2Proof.Claims

open Sys2Proof.Machine

/-- Settles O38: each conjunct is one field's value after reset (10_state R33). -/
theorem resetValues : Obligations.ResetValues := by
  intro cfg inp
  exact ⟨State.resetWith_mem_get cfg inp, State.resetWith_acc cfg inp, State.resetWith_pc cfg inp,
    State.resetWith_phase cfg inp, State.resetWith_fault cfg inp, State.resetWith_lp cfg inp,
    State.resetWith_ip cfg inp, State.resetWith_out cfg inp⟩

end Sys2Proof.Claims
end

section
/-! SUPPORT. What a step does to the parameters and to PC, and induction over the states of a run from
reset (00_scope R8, 10_state R23). -/

namespace Sys2Proof.Machine

variable {s t : State}

theorem Effect.cfg_eq {i : Instr} (h : Effect s i t) : t.cfg = s.cfg := by
  cases h <;> rfl

/-- PC stays at a HALT or a fatal error, advances by one, or takes the operand of a jump (40_cycle R86). -/
theorem Effect.pc_cases {i : Instr} (h : Effect s i t) :
    t.pc = s.pc ∨ t.pc = s.pc + 1 ∨ t.pc = (i.operand : Int) := by
  cases h <;> simp [nextPc, Instr.operand]

theorem LoadEffect.cfg_eq (h : LoadEffect s t) : t.cfg = s.cfg := by
  cases h <;> rfl

theorem LoadEffect.pc_eq (h : LoadEffect s t) : t.pc = s.pc := by
  cases h <;> rfl

theorem CycleEffect.cfg_eq (h : CycleEffect s t) : t.cfg = s.cfg := by
  cases h with
  | pcOut | badOperand | badOpcode => rfl
  | instr _ _ _ _ _ he => exact he.cfg_eq

/-- PC stays, or PC was an address and then advances by one or takes a jump's operand, an address too. -/
theorem CycleEffect.pc_cases (h : CycleEffect s t) :
    t.pc = s.pc ∨ (Valid s.cfg.n s.pc ∧ (t.pc = s.pc + 1 ∨ Valid s.cfg.n t.pc)) := by
  cases h with
  | pcOut | badOperand | badOpcode => exact .inl rfl
  | instr i _ hpc hd _ he =>
    obtain ⟨-, -, hk⟩ := decode_ok hd
    rcases he.pc_cases with hstay | hnext | hjump
    · exact .inl hstay
    · exact .inr ⟨hpc, .inl hnext⟩
    · exact .inr ⟨hpc, .inr (by omega)⟩

theorem step_cfg_eq (h : step s = .next t) : t.cfg = s.cfg := by
  rcases step_cases h with ⟨-, he⟩ | ⟨-, he⟩
  · exact he.cfg_eq
  · exact he.cfg_eq

/-- Every step keeps PC in `0 .. N` (10_state R23). -/
theorem step_keeps_pc_range (hpc : 0 ≤ s.pc ∧ s.pc ≤ (s.cfg.n : Int)) (h : step s = .next t) :
    0 ≤ t.pc ∧ t.pc ≤ (t.cfg.n : Int) := by
  rw [step_cfg_eq h]
  rcases step_cases h with ⟨-, he⟩ | ⟨-, he⟩
  · rwa [he.pc_eq]
  · rcases he.pc_cases with hstay | ⟨hv, hnext | hjump⟩ <;> omega

/-- What holds after reset and is kept by every step holds of every reachable state. -/
theorem reachable_induction {cfg : Config} {inp : List Token} {P : State → Prop}
    (hreset : P (State.resetWith cfg inp)) (hstep : ∀ s t, P s → step s = .next t → P t)
    (h : Reachable cfg inp s) : P s := by
  induction h with
  | reset => exact hreset
  | step s t _ hst ih => exact hstep s t ih hst

theorem Reachable.cfg_eq {cfg : Config} {inp : List Token} (h : Reachable cfg inp s) : s.cfg = cfg :=
  reachable_induction (P := fun s => s.cfg = cfg) rfl
    (fun _ _ hs hst => (step_cfg_eq hst).trans hs) h

theorem Reachable.pc_range {cfg : Config} {inp : List Token} (h : Reachable cfg inp s) :
    0 ≤ s.pc ∧ s.pc ≤ (cfg.n : Int) := by
  have hrange : 0 ≤ s.pc ∧ s.pc ≤ (s.cfg.n : Int) :=
    reachable_induction (P := fun s => 0 ≤ s.pc ∧ s.pc ≤ (s.cfg.n : Int)) (by simp)
      (fun _ _ => step_keeps_pc_range) h
  rwa [h.cfg_eq] at hrange

end Sys2Proof.Machine
end

section
/-! SUPPORT. The checks of a cycle, one step lemma each: a PC that is no address (40_cycle R81), a word
that is no instruction (R84, R85). -/

namespace Sys2Proof.Machine

variable {s : State}

theorem step_of_pc_not_valid (hrun : s.phase = .run) (hpc : ¬ Valid s.cfg.n s.pc) :
    step s = .next (s.raise .pcOutOfBounds s.pc) :=
  (step_run hrun).trans (if_neg hpc)

theorem step_of_decode_error {r : Reject} (hrun : s.phase = .run) (hpc : Valid s.cfg.n s.pc)
    (hd : decode s.cfg.n s.fetch = .error r) : step s = .next (s.raiseReject r) := by
  rw [step_run hrun, cycle, if_pos hpc, hd]

end Sys2Proof.Machine
end

section
namespace Sys2Proof.Claims

open Sys2Proof.Machine

/-- The model's `raise` is the fatal stop the statements write out (00_scope R13). -/
theorem raise_eq_stopped (s : State) (c : FatalCode) (v : Int) : s.raise c v = stopped s c v := rfl

/-- Settles O23: the first check of the cycle, and the range `0 .. N` that every step keeps PC in. -/
theorem invalidPcIsFatal : Obligations.InvalidPcIsFatal := by
  refine ⟨fun s hrun hpc => ?_, fun cfg inp s _ hreach hpc => ?_⟩
  · rw [step_of_pc_not_valid hrun hpc, raise_eq_stopped]
  · have hrange := hreach.pc_range
    omega

/-- Settles O25: the decoder rejects the word by its operand field, before it looks at the opcode. -/
theorem invalidOperandIsFatalWhateverTheOpcode :
    Obligations.InvalidOperandIsFatalWhateverTheOpcode := by
  intro s hrun hpc hoperand
  have hd : decode s.cfg.n s.fetch = .error (.invalidOperand (operandField s.fetch)) :=
    decode_of_not_valid hoperand
  rw [step_of_decode_error hrun hpc hd]
  rfl

end Sys2Proof.Claims
end

section
/-! SUPPORT. The decoder after the encoder: the word of a well-formed instruction decodes to that
instruction, whatever the number of cells (30_encoding R61, R64, R69). -/

namespace Sys2Proof

variable {i : Instr}

/-- The word of a two-digit operand splits into the opcode's number and that operand. -/
theorem fields_encode (hk : i.operand < 100) :
    opcodeField (encode i) = i.opcode.code ∧ operandField (encode i) = (i.operand : Int) := by
  obtain ⟨hcode, -⟩ := i.opcode.code_range
  exact tdiv_tmod_of_nonneg hcode (by omega) (by omega)

theorem decode_encode {n : Nat} (h : WellFormed n i) : decode n (encode i) = .ok i := by
  obtain ⟨hdigits, hcell⟩ := h
  obtain ⟨hopcode, hoperand⟩ := fields_encode hdigits
  have hvalid : Valid n (operandField (encode i)) := by omega
  have hlookup : Opcode.ofCode? (opcodeField (encode i)) = some i.opcode := by
    rw [hopcode, Opcode.ofCode?_code]
  rw [decode_of_some hvalid hlookup, hoperand, Int.toNat_natCast, Instr.make_opcode_operand]

end Sys2Proof
end

section
/-! SUPPORT. STORE and LOAD with a valid operand, one equation each: the one effect that
`exec_effect` leaves for the instruction (43_load_store R115, R116). -/

namespace Sys2Proof.Machine

variable {s : State} {k : Nat}

theorem exec_store (h : Valid s.cfg.n k) :
    exec (.store k) s = .next ((s.memWrite k s.acc).sequence none) := by
  obtain ⟨t, hexec, heffect⟩ := exec_effect (.store k) s h
  cases heffect
  exact hexec

theorem exec_load (h : Valid s.cfg.n k) :
    exec (.load k) s = .next ((s.setAcc (s.mem.get k)).sequence none) := by
  obtain ⟨t, hexec, heffect⟩ := exec_effect (.load k) s h
  cases heffect
  exact hexec

end Sys2Proof.Machine
end

section
namespace Sys2Proof.Claims

open Sys2Proof.Machine

/-- `exec_invalid` in the statements' words: an operand that is no address is the fatal stop
InvalidOperand, whatever the instruction (40_cycle R84). -/
theorem exec_stopped_of_not_valid (i : Instr) (s : State) (h : ¬ Valid s.cfg.n (i.operand : Int)) :
    exec i s = .next (stopped s .invalidOperand i.operand) := by
  rw [exec_invalid i s h, raise_eq_stopped]

/-- Settles O4: `exec_store` gives the state, the two laws of reading after a write say what its
Memory then holds, and the word is the encoder's. -/
theorem storeWritesTheOneCell : Obligations.StoreWritesTheOneCell := by
  refine ⟨fun k s => ⟨fun hvalid => ⟨?_, ?_, ?_⟩, ?_⟩, fun n k hdigits hcell => ?_⟩
  · exact exec_store hvalid
  · exact fun hwf => Memory.get_set_same hwf k s.acc
  · exact fun a ha => Memory.get_set_other s.mem ha s.acc
  · exact exec_stopped_of_not_valid (.store k) s
  · exact decode_encode (i := .store k) ⟨hdigits, hcell⟩

/-- Settles O5: `exec_load` names no overflow mode, as PASS cannot overflow; the word is the
encoder's. -/
theorem loadCopiesTheCellToAcc : Obligations.LoadCopiesTheCellToAcc := by
  refine ⟨fun k s => ⟨fun hvalid => ?_, ?_⟩, fun n k hdigits hcell => ?_⟩
  · exact exec_load hvalid
  · exact exec_stopped_of_not_valid (.load k) s
  · exact decode_encode (i := .load k) ⟨hdigits, hcell⟩

end Sys2Proof.Claims
end

section
/-! SUPPORT. The three jumps with a valid operand, one equation each: the only register they write is
PC, and a conditional one picks its target by ACC alone (44_jumps R120 to R123). -/

namespace Sys2Proof.Machine

variable {s : State} {k : Nat}

theorem exec_jump (h : Valid s.cfg.n k) :
    exec (.jump k) s = .next (s.sequence (some k)) := by
  obtain ⟨t, hexec, heffect⟩ := exec_effect (.jump k) s h
  cases heffect
  exact hexec

theorem exec_jz (h : Valid s.cfg.n k) :
    exec (.jz k) s = .next (s.sequence (if s.acc = 0 then some k else none)) := by
  obtain ⟨t, hexec, heffect⟩ := exec_effect (.jz k) s h
  cases heffect with
  | jzTaken _ hzero => rw [if_pos hzero, hexec]
  | jzNotTaken _ hzero => rw [if_neg hzero, hexec]

theorem exec_jp (h : Valid s.cfg.n k) :
    exec (.jp k) s = .next (s.sequence (if 0 < s.acc then some k else none)) := by
  obtain ⟨t, hexec, heffect⟩ := exec_effect (.jp k) s h
  cases heffect with
  | jpTaken _ hpos => rw [if_pos hpos, hexec]
  | jpNotTaken _ hpos => rw [if_neg hpos, hexec]

end Sys2Proof.Machine
end

section
namespace Sys2Proof.Claims

open Sys2Proof.Machine

/-- Settles O6: `exec_jump` hands `k` to the sequencer without a look at ACC; the word is the
encoder's. -/
theorem jumpSetsPcToTheOperand : Obligations.JumpSetsPcToTheOperand := by
  refine ⟨fun k s => ⟨fun hvalid => ?_, ?_⟩, fun n k hdigits hcell => ?_⟩
  · exact exec_jump hvalid
  · exact exec_stopped_of_not_valid (.jump k) s
  · exact decode_encode (i := .jump k) ⟨hdigits, hcell⟩

/-- Settles O7: the two branches of `exec_jz`; the operand is checked before ACC is tested. -/
theorem jzJumpsExactlyWhenAccIsZero : Obligations.JzJumpsExactlyWhenAccIsZero := by
  refine ⟨fun k s => ⟨fun hvalid hzero => ?taken, fun hvalid hzero => ?notTaken, ?invalid⟩,
    fun n k hdigits hcell => ?word⟩
  case taken =>
    rw [exec_jz hvalid, if_pos hzero]
    rfl
  case notTaken =>
    rw [exec_jz hvalid, if_neg hzero]
    rfl
  case invalid => exact exec_stopped_of_not_valid (.jz k) s
  case word => exact decode_encode (i := .jz k) ⟨hdigits, hcell⟩

/-- Settles O8: the two branches of `exec_jp`, where `ACC <= 0` is the strict test failing; the operand
is checked before ACC is tested. -/
theorem jpJumpsExactlyWhenAccIsPositive : Obligations.JpJumpsExactlyWhenAccIsPositive := by
  refine ⟨fun k s => ⟨fun hvalid hpos => ?taken, fun hvalid hnonpos => ?notTaken, ?invalid⟩,
    fun n k hdigits hcell => ?word⟩
  case taken =>
    rw [exec_jp hvalid, if_pos hpos]
    rfl
  case notTaken =>
    rw [exec_jp hvalid, if_neg hnonpos.not_gt]
    rfl
  case invalid => exact exec_stopped_of_not_valid (.jp k) s
  case word => exact decode_encode (i := .jp k) ⟨hdigits, hcell⟩

end Sys2Proof.Claims
end

section
/-! SUPPORT. OUTPUT with a valid operand: the word emitted is the operand's cell, not ACC (45_io R134). -/

namespace Sys2Proof.Machine

variable {s : State} {k : Nat}

theorem exec_output (h : Valid s.cfg.n k) :
    exec (.output k) s = .next ((s.outEmit (s.mem.get k)).sequence none) := by
  obtain ⟨t, hexec, heffect⟩ := exec_effect (.output k) s h
  cases heffect
  exact hexec

end Sys2Proof.Machine
end

section
namespace Sys2Proof.Claims

open Sys2Proof.Machine

/-- Settles O10: `exec_output` emits the cell whatever its word and asks nothing of the environment, as
the model's output port takes every word (the spec's decision D16; log 14); the word is the encoder's. -/
theorem outputEmitsTheCell : Obligations.OutputEmitsTheCell := by
  refine ⟨fun k s => ⟨fun hvalid => ?_, ?_⟩, fun n k hdigits hcell => ?_⟩
  · exact exec_output hvalid
  · exact exec_stopped_of_not_valid (.output k) s
  · exact decode_encode (i := .output k) ⟨hdigits, hcell⟩

end Sys2Proof.Claims
end

section
/-! SUPPORT. The words the decoder rejects by their opcode: which fields they have (40_cycle R85), and,
where every two-digit operand is an address, which words they are. -/

namespace Sys2Proof

variable {n : Nat} {ir : Int}

theorem Opcode.ofCode?_eq_none_iff {v : Int} : Opcode.ofCode? v = none ↔ v < 0 ∨ 10 ≤ v := by
  refine ⟨Opcode.ofCode?_none, fun hout => Option.eq_none_iff_forall_ne_some.mpr fun o ho => ?_⟩
  have hcode := Opcode.code_of_ofCode? ho
  have hrange := o.code_range
  omega

theorem decode_eq_invalidInstruction_iff {v : Int} :
    decode n ir = .error (.invalidInstruction v) ↔
      Valid n (operandField ir) ∧ (opcodeField ir < 0 ∨ 10 ≤ opcodeField ir) ∧ v = opcodeField ir := by
  constructor
  · intro hd
    obtain ⟨-, hr⟩ | ⟨hvalid, hout, hr⟩ := decode_error hd
    · cases hr
    · cases hr
      exact ⟨hvalid, hout, rfl⟩
  · rintro ⟨hvalid, hout, rfl⟩
    exact decode_of_none hvalid (Opcode.ofCode?_eq_none_iff.mpr hout)

/-- A word's fields carry its sign, so with 100 cells or more its operand is an address unless the word
is negative and no multiple of 100. -/
theorem fields_rejected_by_opcode_iff (hn : 100 ≤ n) :
    Valid n (operandField ir) ∧ (opcodeField ir < 0 ∨ 10 ≤ opcodeField ir) ↔
      1000 ≤ ir ∨ (ir < 0 ∧ ∃ j : Int, ir = 100 * j) := by
  obtain ⟨hsplit, hlow, hhigh, hnonneg, hnonpos⟩ :
      ir = 100 * opcodeField ir + operandField ir ∧ -99 ≤ operandField ir ∧ operandField ir ≤ 99 ∧
        (0 ≤ ir → 0 ≤ operandField ir ∧ 0 ≤ opcodeField ir) ∧
        (ir ≤ 0 → operandField ir ≤ 0 ∧ opcodeField ir ≤ 0) := tdiv_tmod_spec ir
  constructor
  · rintro ⟨hvalid, hneg | hten⟩
    · exact .inr ⟨by omega, opcodeField ir, by omega⟩
    · exact .inl (by omega)
  · rintro (hbig | ⟨hneg, j, hj⟩)
    · exact ⟨by omega, .inr (by omega)⟩
    · exact ⟨by omega, .inl (by omega)⟩

end Sys2Proof
end

section
namespace Sys2Proof.Claims

open Sys2Proof.Machine

/-- Settles O26: a word with a valid operand is rejected by its opcode exactly when that is outside
0 to 9, and with N >= 100 the fields say which words those are. -/
theorem unknownOpcodeIsFatal : Obligations.UnknownOpcodeIsFatal := by
  refine ⟨fun s hrun hpc hoperand hopcode => ?_, fun n ir hn => ?_⟩
  · have hd : decode s.cfg.n s.fetch = .error (.invalidInstruction (opcodeField s.fetch)) :=
      decode_eq_invalidInstruction_iff.mpr ⟨hoperand, hopcode, rfl⟩
    rw [step_of_decode_error hrun hpc hd]
    rfl
  · rw [← fields_rejected_by_opcode_iff hn]
    constructor
    · rintro ⟨v, hd⟩
      obtain ⟨hvalid, hout, -⟩ := decode_eq_invalidInstruction_iff.mp hd
      exact ⟨hvalid, hout⟩
    · rintro ⟨hvalid, hout⟩
      exact ⟨opcodeField ir, decode_eq_invalidInstruction_iff.mpr ⟨hvalid, hout, rfl⟩⟩

end Sys2Proof.Claims
end

section
/-! SUPPORT. The two fields of a word of any sign, which words decode, and the encoder after the decoder
(30_encoding R61, R65, R69). -/

namespace Sys2Proof

variable {n : Nat} {ir : Int} {i : Instr}

theorem tmod_eq_operandField (ir : Int) : Int.tmod ir 100 = operandField ir := rfl

theorem tdiv_eq_opcodeField (ir : Int) : Int.tdiv ir 100 = opcodeField ir := rfl

/-- `tdiv_tmod_spec` in the decoder's words. -/
theorem fields_spec (ir : Int) :
    ir = 100 * opcodeField ir + operandField ir ∧ -99 ≤ operandField ir ∧ operandField ir ≤ 99 ∧
      (0 ≤ ir → 0 ≤ operandField ir ∧ 0 ≤ opcodeField ir) ∧
      (ir ≤ 0 → operandField ir ≤ 0 ∧ opcodeField ir ≤ 0) := tdiv_tmod_spec ir

theorem encode_eq (i : Instr) : encode i = 100 * i.opcode.code + i.operand := rfl

theorem encode_of_decode (h : decode n ir = .ok i) : encode i = ir := by
  obtain ⟨hopcode, hoperand, -⟩ := decode_ok h
  obtain ⟨hsplit, -⟩ := fields_spec ir
  rw [encode_eq, ← hopcode, ← hoperand, ← hsplit]

theorem wellFormed_of_decode (h : decode n ir = .ok i) : WellFormed n i := by
  obtain ⟨-, hoperand, hcell⟩ := decode_ok h
  obtain ⟨-, -, hdigits, -⟩ := fields_spec ir
  exact ⟨by omega, hcell⟩

theorem decode_isOk_iff : (∃ i, decode n ir = .ok i) ↔
    Valid n (operandField ir) ∧ 0 ≤ opcodeField ir ∧ opcodeField ir ≤ 9 := by
  constructor
  · rintro ⟨i, hd⟩
    obtain ⟨hopcode, hoperand, hcell⟩ := decode_ok hd
    have hrange := i.opcode.code_range
    omega
  · rintro ⟨hvalid, hlow, hhigh⟩
    cases hd : decode n ir with
    | ok i => exact ⟨i, rfl⟩
    | error r =>
      obtain ⟨hbad, -⟩ | ⟨-, hout, -⟩ := decode_error hd
      · exact absurd hvalid hbad
      · omega

/-- The words 0 to 99 are HALT with the word itself as operand (30_encoding R67). -/
theorem decode_natCast_eq_halt {k : Nat} (hdigits : k < 100) (hcell : k < n) :
    decode n (k : Int) = .ok (.halt k) := by
  have hword : encode (.halt k) = (k : Int) := by simp [encode_eq, Instr.opcode, Opcode.code, Instr.operand]
  rw [← hword]
  exact decode_encode ⟨hdigits, hcell⟩

/-- A word of two digits, of either sign, is its own operand field. -/
theorem operandField_of_two_digits (hlow : -99 ≤ ir) (hhigh : ir ≤ 99) : operandField ir = ir := by
  have hspec := fields_spec ir
  omega

end Sys2Proof
end

section
namespace Sys2Proof.Claims

open Sys2Proof.Machine

/-- Settles O18: the fields of an encoding are the opcode's number and the operand, so the decoder
finds the opcode and makes the instruction again. -/
theorem decodeOfEncodeIsTheInstruction : Obligations.DecodeOfEncodeIsTheInstruction := by
  exact ⟨fun i hdigits => ⟨encode_eq i, fields_encode hdigits⟩, fun n i hwf => decode_encode hwf⟩

/-- Settles O19: a word is 100 times its opcode field plus its operand field. -/
theorem encodeOfDecodeIsTheWord : Obligations.EncodeOfDecodeIsTheWord :=
  fun _ _ _ hd => ⟨encode_of_decode hd, wellFormed_of_decode hd⟩

/-- Settles O20: the sign of a word is the sign of both its fields, and its size bounds the opcode; so
each class fixes which of the decoder's two tests fails, if any. -/
theorem everyWordFallsInItsClass : Obligations.EveryWordFallsInItsClass := by
  refine ⟨fun n ir hn => ?_, fun ir => ?_⟩
  · simp only [tmod_eq_operandField, tdiv_eq_opcodeField]
    have hspec := fields_spec ir
    refine ⟨fun hneg hne => ?negative, fun hnonneg hout => ?outside, fun hneg hzero => ?multiple,
      fun hnonneg hlow hcell => ?legal, fun hhigh hcell => ?large⟩
    case negative => exact ⟨decode_of_not_valid (by omega), by omega⟩
    case outside => exact ⟨decode_of_not_valid (by omega), by omega⟩
    case multiple =>
      refine ⟨(-opcodeField ir).toNat, by omega, by omega, ?_⟩
      exact decode_eq_invalidInstruction_iff.mpr (by omega)
    case legal =>
      have hfields : Valid n (operandField ir) ∧ 0 ≤ opcodeField ir ∧ opcodeField ir ≤ 9 := by omega
      obtain ⟨i, hd⟩ := decode_isOk_iff.mpr hfields
      obtain ⟨hopcode, hoperand, -⟩ := decode_ok hd
      exact ⟨i, hd, hopcode.symm, hoperand.symm⟩
    case large =>
      have hten : 10 ≤ opcodeField ir := by omega
      exact ⟨decode_eq_invalidInstruction_iff.mpr ⟨by omega, .inr hten, rfl⟩, hten⟩
  · have hspec := fields_spec ir
    rw [decode_isOk_iff]
    omega

/-- Settles O21: fourteen closed words, each evaluated by the decoder. -/
theorem tableWordsDecode : Obligations.TableWordsDecode :=
  ⟨rfl, rfl, rfl, rfl, rfl, rfl, rfl, rfl, rfl, rfl, rfl, rfl, rfl, rfl⟩

end Sys2Proof.Claims
end

section
/-! SUPPORT. The invariant, one rule per operation on the state; then the Loader's step, an instruction
and the whole step, each made of those operations. -/

namespace Sys2Proof.Machine

theorem xlen_pos_of_wf {cfg : Config} (h : cfg.Wf) : 0 < cfg.xlen := by
  obtain ⟨-, -, hwidth, -⟩ := h
  omega

theorem alu_fits {cfg : Config} {op : AluOp} {a m v : Int} (hx : 0 < cfg.xlen) (hm : Fits cfg.xlen m)
    (h : alu cfg op a m = some v) : Fits cfg.xlen v := by
  have hbring : ∀ z, bringIn cfg z = some v → Fits cfg.xlen v := by
    intro z hz
    cases hovf : cfg.ovf with
    | wrap =>
      rw [bringIn_wrap hovf] at hz
      cases hz
      exact wrap_fits hx z
    | fault =>
      by_cases hfits : Fits cfg.xlen z
      · rw [bringIn_fits hovf hfits] at hz
        cases hz
        exact hfits
      · rw [bringIn_not_fits hovf hfits] at hz
        cases hz
  cases op with
  | add => exact hbring _ h
  | sub => exact hbring _ h
  | pass =>
    cases h
    exact hm

/-- An integer token was supplied, so IP has not passed the end of the stream (10_state R29). -/
theorem State.ip_lt_of_inNext_int {s : State} {v : Int} (h : s.inNext = .int v) :
    s.ip < s.inp.length := by
  obtain ⟨htoken, -⟩ := State.inNext_int h
  exact (List.getElem?_eq_some_iff.mp htoken).1

namespace State.Inv

variable {s t : State}

theorem xlen_pos (h : s.Inv) : 0 < s.cfg.xlen := xlen_pos_of_wf h.cfg

theorem get_fits (h : s.Inv) (a : Nat) : Fits s.cfg.xlen (s.mem.get a) := Memory.get_fits h.memWithin a

theorem fault_eq_none (h : s.Inv) (hphase : s.phase ≠ .faulted) : s.fault = none :=
  not_not.mp fun hfault => hphase (h.fault.mp hfault)

theorem raise (h : s.Inv) (c : FatalCode) (v : Int) : (s.raise c v).Inv :=
  { h with fault := by simp, loading := by simp }

theorem doHalt (h : s.Inv) (hphase : s.phase ≠ .faulted) : s.doHalt.Inv :=
  { h with fault := by simp [h.fault_eq_none hphase], loading := by simp }

theorem enterRun (h : s.Inv) (hphase : s.phase ≠ .faulted) : s.enterRun.Inv :=
  { h with fault := by simp [h.fault_eq_none hphase], loading := by simp }

theorem memWrite (h : s.Inv) {a : Nat} {v : Int} (ha : a < s.cfg.n) (hv : Fits s.cfg.xlen v) :
    (s.memWrite a v).Inv :=
  { h with memWf := Memory.wf_set h.memWf, memWithin := Memory.within_set ha hv h.memWithin }

theorem consume (h : s.Inv) (hip : s.ip < s.inp.length) : s.consume.Inv := { h with ip := hip }

theorem bumpLp (h : s.Inv) (hlp : s.lp < s.cfg.n) : s.bumpLp.Inv := { h with lp := hlp }

theorem setAcc (h : s.Inv) (hphase : s.phase ≠ .load) {v : Int} (hv : Fits s.cfg.xlen v) :
    (s.setAcc v).Inv :=
  { h with acc := hv, loading := fun hload => absurd hload hphase }

theorem outEmit (h : s.Inv) (hphase : s.phase ≠ .load) {v : Int} (hv : Fits s.cfg.xlen v) :
    (s.outEmit v).Inv :=
  { h with
    out := by
      intro w hw
      obtain hold | hnew := List.mem_append.mp hw
      · exact h.out w hold
      · exact List.mem_singleton.mp hnew ▸ hv
    loading := fun hload => absurd hload hphase }

theorem advance (h : s.Inv) (hphase : s.phase ≠ .load) (hpc : s.pc < (s.cfg.n : Int)) :
    (s.sequence none).Inv :=
  { h with
    pc := ⟨Int.add_nonneg h.pc.1 (by decide), hpc⟩
    loading := fun hload => absurd hload hphase }

theorem jumpTo (h : s.Inv) (hphase : s.phase ≠ .load) {k : Nat} (hk : k < s.cfg.n) :
    (s.sequence (some (k : Int))).Inv :=
  { h with
    pc := ⟨Int.natCast_nonneg k, Int.ofNat_le.mpr hk.le⟩
    loading := fun hload => absurd hload hphase }

theorem loadEffect (h : s.Inv) (hphase : s.phase = .load) (he : LoadEffect s t) : t.Inv := by
  cases he with
  | malformed _ => exact h.raise _ _
  | sentinel hv =>
    exact (h.consume (State.ip_lt_of_inNext_int hv)).enterRun (by simp [hphase])
  | overflow v _ _ _ => exact h.raise _ _
  | stored v hv _ hroom =>
    exact ((h.memWrite hroom (State.inNext_int hv).2).bumpLp hroom).consume
      (State.ip_lt_of_inNext_int hv)

theorem effect {i : Instr} (h : s.Inv) (hphase : s.phase = .run) (hpc : Valid s.cfg.n s.pc)
    (hk : i.operand < s.cfg.n) (he : Effect s i t) : t.Inv := by
  have hload : s.phase ≠ .load := by simp [hphase]
  obtain ⟨-, hlast⟩ := hpc
  cases he with
  | halt k => exact h.doHalt (by simp [hphase])
  | add k v hv | sub k v hv =>
    exact (h.setAcc hload (alu_fits h.xlen_pos (h.get_fits k) hv)).advance hload hlast
  | addOverflow k _ | subOverflow k _ => exact h.raise _ _
  | store k => exact (h.memWrite hk h.acc).advance hload hlast
  | load k => exact (h.setAcc hload (h.get_fits k)).advance hload hlast
  | jump k | jzTaken k _ | jpTaken k _ => exact h.jumpTo hload hk
  | jzNotTaken k _ | jpNotTaken k _ => exact h.advance hload hlast
  | input k v hv =>
    exact ((h.memWrite hk (State.inNext_int hv).2).consume (State.ip_lt_of_inNext_int hv)).advance
      hload hlast
  | inputMalformed k _ => exact h.raise _ _
  | output k => exact (h.outEmit hload (h.get_fits k)).advance hload hlast

theorem cycleEffect (h : s.Inv) (hphase : s.phase = .run) (he : CycleEffect s t) : t.Inv := by
  cases he with
  | pcOut _ | badOperand _ _ | badOpcode _ _ _ => exact h.raise _ _
  | instr i _ hpc hd _ heffect =>
    obtain ⟨-, -, hk⟩ := decode_ok hd
    exact h.effect hphase hpc hk heffect

theorem step (h : s.Inv) (hstep : step s = .next t) : t.Inv := by
  obtain ⟨hphase, he⟩ | ⟨hphase, he⟩ := step_cases hstep
  · exact h.loadEffect hphase he
  · exact h.cycleEffect hphase he

theorem of_resetWith {cfg : Config} {inp : List Token} (hcfg : cfg.Wf) : (resetWith cfg inp).Inv where
  cfg := hcfg
  memWf := rfl
  memWithin := rfl
  acc := fits_zero cfg.xlen
  pc := by simp
  lp := Nat.zero_le _
  ip := Nat.zero_le _
  out := by simp
  fault := by simp
  loading := by simp

theorem of_launch {cfg : Config} {m : Memory} {inp : List Token} (hcfg : cfg.Wf) (hwf : m.wf = true)
    (hwithin : m.within cfg.n cfg.xlen = true) : (launch cfg m inp).Inv :=
  { of_resetWith (inp := inp) hcfg with
    memWf := hwf
    memWithin := hwithin
    fault := by simp [launch]
    loading := by simp [launch] }

end State.Inv

end Sys2Proof.Machine
end

section
namespace Sys2Proof.Claims

open Sys2Proof.Machine

/-- Settles O35: every effect of a step is made of operations that keep the invariant, each where its
effect uses it: a store to one of the N cells, a word of Int_XLEN, PC an address before it advances. -/
theorem everyStepKeepsTheInvariant : Obligations.EveryStepKeepsTheInvariant :=
  fun _ _ hinv hstep => hinv.step hstep

/-- Settles O36: the default parameters are legal, and reset has the invariant for any that are. -/
theorem resetHasTheInvariant : Obligations.ResetHasTheInvariant :=
  ⟨State.Inv.of_resetWith (by decide), fun _ _ hcfg => State.Inv.of_resetWith hcfg⟩

/-- Settles O37: the launch state is the reset state but for Memory and PHASE. -/
theorem engineLaunchState : Obligations.EngineLaunchState :=
  fun _ _ _ => ⟨⟨rfl, rfl, rfl, rfl, rfl, rfl, rfl, rfl, rfl⟩, State.Inv.of_launch⟩

end Sys2Proof.Claims
end

section
/-! SUPPORT. `wrap` as the residue it is (00_scope R10): what the laws of ADD and SUB under OVF = wrap
rest on. -/

namespace Sys2Proof

variable {x : Nat}

theorem wrap_modEq (x : Nat) (z : Int) : wrap x z ≡ z [ZMOD modulus x] := wrap_emod x z

theorem fits_iff_wrap_eq (hx : 0 < x) {z : Int} : Fits x z ↔ wrap x z = z :=
  ⟨wrap_of_fits hx, fun h => h ▸ wrap_fits hx z⟩

theorem eq_wrap_of_fits_of_dvd (hx : 0 < x) {y z : Int} (hy : Fits x y) (h : modulus x ∣ y - z) :
    y = wrap x z := by
  rw [← wrap_of_fits hx hy]
  exact wrap_congr x (Int.modEq_iff_dvd.mpr h).symm

/-- A subtraction sees its left operand only modulo 2^XLEN. -/
theorem wrap_wrap_sub (x : Nat) (z m : Int) : wrap x (wrap x z - m) = wrap x (z - m) :=
  wrap_congr x ((wrap_modEq x z).sub_right m)

/-- A number less than one modulus away from 0 wraps by one modulus at most (42_arithmetic R108). -/
theorem wrap_eq_by_one_modulus (hx : 0 < x) {z : Int} (hlow : -modulus x ≤ z) (hhigh : z < modulus x) :
    wrap x z =
      if half x - 1 < z then z - modulus x else if z < -half x then z + modulus x else z := by
  have hm := modulus_eq_two_half hx
  split_ifs with habove hbelow
  · rw [← wrap_sub_modulus, wrap_of_fits hx (by constructor <;> omega)]
  · rw [← wrap_add_modulus, wrap_of_fits hx (by constructor <;> omega)]
  · exact wrap_of_fits hx (by constructor <;> omega)

end Sys2Proof
end

section
/-! SUPPORT. HALT, ADD, SUB and INPUT with a valid operand, one equation each; and the three results of
an accumulation whose exact result is `z`, said once for ADD and SUB (42_arithmetic R106 to R109). -/

namespace Sys2Proof.Machine

variable {s : State} {k : Nat}

theorem exec_halt (h : Valid s.cfg.n k) : exec (.halt k) s = .next s.doHalt :=
  withOperand_valid h fun s => .next s.doHalt

theorem exec_add (h : Valid s.cfg.n k) : exec (.add k) s = accumulate .add k s := withOperand_valid h _

theorem exec_sub (h : Valid s.cfg.n k) : exec (.sub k) s = accumulate .sub k s := withOperand_valid h _

theorem exec_input {v : Int} (h : Valid s.cfg.n k) (hv : s.inNext = .int v) :
    exec (.input k) s = .next (((s.memWrite k v).consume).sequence none) := by
  obtain ⟨t, hexec, heffect⟩ := exec_effect (.input k) s h
  cases heffect with
  | input _ w hw =>
    cases hw.symm.trans hv
    exact hexec
  | inputMalformed _ hno => exact absurd hv (hno v)

theorem exec_input_malformed (h : Valid s.cfg.n k) (hno : ∀ v, s.inNext ≠ .int v) :
    exec (.input k) s = .next (s.raise .malformedInput 0) := by
  obtain ⟨t, hexec, heffect⟩ := exec_effect (.input k) s h
  cases heffect with
  | input _ w hw => exact absurd hw (hno w)
  | inputMalformed _ _ => exact hexec

variable {op : AluOp} {z : Int}

theorem accumulate_wrap (halu : alu s.cfg op s.acc (s.mem.get k) = bringIn s.cfg z)
    (hovf : s.cfg.ovf = .wrap) :
    accumulate op k s = .next { s with acc := wrap s.cfg.xlen z, pc := s.pc + 1 } :=
  accumulate_some (halu.trans (bringIn_wrap hovf z))

theorem accumulate_exact (halu : alu s.cfg op s.acc (s.mem.get k) = bringIn s.cfg z)
    (hovf : s.cfg.ovf = .fault) (hz : Fits s.cfg.xlen z) :
    accumulate op k s = .next { s with acc := z, pc := s.pc + 1 } :=
  accumulate_some (halu.trans (bringIn_fits hovf hz))

theorem accumulate_overflow (halu : alu s.cfg op s.acc (s.mem.get k) = bringIn s.cfg z)
    (hovf : s.cfg.ovf = .fault) (hz : ¬ Fits s.cfg.xlen z) :
    accumulate op k s = .next (s.raise .arithmeticOverflow (s.mem.get k)) :=
  accumulate_none (halu.trans (bringIn_not_fits hovf hz))

theorem exec_add_wrap (h : Valid s.cfg.n k) (hovf : s.cfg.ovf = .wrap) : exec (.add k) s =
    .next { s with acc := wrap s.cfg.xlen (s.acc + s.mem.get k), pc := s.pc + 1 } :=
  (exec_add h).trans (accumulate_wrap rfl hovf)

theorem exec_sub_wrap (h : Valid s.cfg.n k) (hovf : s.cfg.ovf = .wrap) : exec (.sub k) s =
    .next { s with acc := wrap s.cfg.xlen (s.acc - s.mem.get k), pc := s.pc + 1 } :=
  (exec_sub h).trans (accumulate_wrap rfl hovf)

theorem accumulate_wrap_of_fits (halu : alu s.cfg op s.acc (s.mem.get k) = bringIn s.cfg z)
    (hx : 0 < s.cfg.xlen) (hovf : s.cfg.ovf = .wrap) (hz : Fits s.cfg.xlen z) :
    accumulate op k s = .next { s with acc := z, pc := s.pc + 1 } := by
  rw [accumulate_wrap halu hovf, wrap_of_fits hx hz]

end Sys2Proof.Machine
end

section
/-! SUPPORT. The next token in the statements' words (00_scope R12, 10_state R29). -/

namespace Sys2Proof.Claims

open Sys2Proof.Machine

variable {s : State} {v : Int}

theorem inNext_eq_int_iff : s.inNext = .int v ↔ nextIs s v := by
  refine ⟨State.inNext_int, fun ⟨htoken, hfits⟩ => ?_⟩
  simp only [State.inNext, htoken]
  exact if_pos hfits

/-- The sentinel is a word of every width (70_reset R182). -/
theorem fits_neg_one (x : Nat) : Fits x (-1) := by
  have := half_pos x
  constructor <;> omega

theorem inNext_ne_int_of_not_nextIs (h : ∀ v, ¬ nextIs s v) (v : Int) : s.inNext ≠ .int v :=
  fun hv => h v (inNext_eq_int_iff.mp hv)

end Sys2Proof.Claims
end

section
namespace Sys2Proof.Claims

open Sys2Proof.Machine

/-- Settles O2: the exact sum, and what each mode makes of it; the word is the encoder's. -/
theorem addAddsTheCellToAcc : Obligations.AddAddsTheCellToAcc := by
  refine ⟨fun k s => ⟨fun hvalid hovf => ?wrap, fun hvalid hovf hfits => ?exact,
    fun hvalid hovf hfits => ?overflow, ?invalid⟩, fun n k hdigits hcell => ?word⟩
  case wrap => exact exec_add_wrap hvalid hovf
  case exact => exact (exec_add hvalid).trans (accumulate_exact rfl hovf hfits)
  case overflow => exact (exec_add hvalid).trans (accumulate_overflow rfl hovf hfits)
  case invalid => exact exec_stopped_of_not_valid (.add k) s
  case word => exact decode_encode (i := .add k) ⟨hdigits, hcell⟩

/-- Settles O3: the exact difference, the cell taken from ACC, and what each mode makes of it; the word
is the encoder's. -/
theorem subSubtractsTheCellFromAcc : Obligations.SubSubtractsTheCellFromAcc := by
  refine ⟨fun k s => ⟨fun hvalid hovf => ?wrap, fun hvalid hovf hfits => ?exact,
    fun hvalid hovf hfits => ?overflow, ?invalid⟩, fun n k hdigits hcell => ?word⟩
  case wrap => exact exec_sub_wrap hvalid hovf
  case exact => exact (exec_sub hvalid).trans (accumulate_exact rfl hovf hfits)
  case overflow => exact (exec_sub hvalid).trans (accumulate_overflow rfl hovf hfits)
  case invalid => exact exec_stopped_of_not_valid (.sub k) s
  case word => exact decode_encode (i := .sub k) ⟨hdigits, hcell⟩

/-- Settles O9: the port answers an integer exactly when the next token is one that fits; reading after
the write is Memory's law, and the word is the encoder's. -/
theorem inputStoresTheNextInteger : Obligations.InputStoresTheNextInteger := by
  refine ⟨fun k s => ⟨fun v hvalid hnext => ⟨?stored, ?same, ?other⟩, fun hvalid hno => ?malformed,
    ?invalid⟩, fun n k hdigits hcell => ?word⟩
  case stored => exact exec_input hvalid (inNext_eq_int_iff.mpr hnext)
  case same => exact fun hwf => Memory.get_set_same hwf k v
  case other => exact fun a ha => Memory.get_set_other s.mem ha v
  case malformed => exact exec_input_malformed hvalid (inNext_ne_int_of_not_nextIs hno)
  case invalid => exact exec_stopped_of_not_valid (.input k) s
  case word => exact decode_encode (i := .input k) ⟨hdigits, hcell⟩

/-- Settles O14: `wrap` lands in Int_XLEN, keeps the residue, and a word of Int_XLEN is its own wrap. -/
theorem wrapIsTheUniqueResidue : Obligations.WrapIsTheUniqueResidue := by
  intro x z hx
  refine ⟨⟨wrap_fits hx z, ?_⟩, fun y hy hdvd => eq_wrap_of_fits_of_dvd hx hy hdvd, fits_iff_wrap_eq hx⟩
  exact (wrap_modEq x z).symm.dvd

/-- Settles O15: the sum and the difference of two words lie less than one modulus outside Int_XLEN. -/
theorem overflowWrapsByOneModulus : Obligations.OverflowWrapsByOneModulus := by
  intro k s hcfg hovf hvalid hacc hcell bring
  have hx := xlen_pos_of_wf hcfg
  have hm := modulus_eq_two_half hx
  have hsum : wrap s.cfg.xlen (s.acc + s.mem.get k) = bring (s.acc + s.mem.get k) :=
    wrap_eq_by_one_modulus hx (by omega) (by omega)
  have hdiff : wrap s.cfg.xlen (s.acc - s.mem.get k) = bring (s.acc - s.mem.get k) :=
    wrap_eq_by_one_modulus hx (by omega) (by omega)
  rw [exec_add_wrap hvalid hovf, exec_sub_wrap hvalid hovf, hsum, hdiff]
  exact ⟨rfl, rfl⟩

/-- Settles O16: `wrap` keeps what fits, so the wrapping mode gives the exact result too. -/
theorem checkedModeRaisesOrIsExact : Obligations.CheckedModeRaisesOrIsExact := by
  intro k s hcfg hvalid hovf wrapping
  have hx : 0 < wrapping.cfg.xlen := xlen_pos_of_wf hcfg
  have hvalid' : Valid wrapping.cfg.n k := hvalid
  refine ⟨fun hfits => ⟨?_, ?_⟩, fun hfits => ?_, fun hfits => ⟨?_, ?_⟩, fun hfits => ?_⟩
  · exact (exec_add hvalid).trans (accumulate_exact rfl hovf hfits)
  · exact (exec_add hvalid').trans (accumulate_wrap_of_fits rfl hx rfl hfits)
  · exact (exec_add hvalid).trans (accumulate_overflow rfl hovf hfits)
  · exact (exec_sub hvalid).trans (accumulate_exact rfl hovf hfits)
  · exact (exec_sub hvalid').trans (accumulate_wrap_of_fits rfl hx rfl hfits)
  · exact (exec_sub hvalid).trans (accumulate_overflow rfl hovf hfits)

/-- Settles O17: `wrap(wrap(ACC + m) - m) = wrap(ACC)`, and ACC fits. -/
theorem addThenSubRestoresAcc : Obligations.AddThenSubRestoresAcc := by
  intro k s t hcfg hovf hvalid hacc hadd
  rw [exec_add_wrap hvalid hovf] at hadd
  cases hadd
  have hrestore : wrap s.cfg.xlen (wrap s.cfg.xlen (s.acc + s.mem.get k) - s.mem.get k) = s.acc := by
    rw [wrap_wrap_sub, add_sub_cancel_right, wrap_of_fits (xlen_pos_of_wf hcfg) hacc]
  rw [exec_sub_wrap (s := { s with acc := wrap s.cfg.xlen (s.acc + s.mem.get k), pc := s.pc + 1 })
    hvalid hovf]
  simp only [hrestore, add_assoc]
  rfl

end Sys2Proof.Claims
end

section
/-! SUPPORT. What an instruction writes, register by register, and which next state each effect is
(10_state R20 to R31, 40_cycle R86). -/

namespace Sys2Proof

theorem Instr.eq_make {i : Instr} {o : Opcode} (h : i.opcode = o) : i = Instr.make o i.operand := by
  rw [← h, Instr.make_opcode_operand]

end Sys2Proof

namespace Sys2Proof.Machine

variable {s t : State} {i : Instr}

/-- `exec` answers the fatal error of the operand check, or the effect of the instruction. -/
theorem exec_cases (h : exec i s = .next t) :
    t = s.raise .invalidOperand (i.operand : Int) ∨ (Valid s.cfg.n (i.operand : Int) ∧ Effect s i t) := by
  by_cases hvalid : Valid s.cfg.n (i.operand : Int)
  · obtain ⟨u, hu, heffect⟩ := exec_effect i s hvalid
    cases hu.symm.trans h
    exact .inr ⟨hvalid, heffect⟩
  · cases (exec_invalid i s hvalid).symm.trans h
    exact .inl rfl

namespace Effect

/-- An effect is the one next state of its instruction. -/
theorem exec_eq (h : Effect s i t) (hvalid : Valid s.cfg.n (i.operand : Int)) : exec i s = .next t := by
  cases h with
  | halt k => exact exec_halt hvalid
  | add k v hv => exact (exec_add hvalid).trans (accumulate_some hv)
  | addOverflow k hnone => exact (exec_add hvalid).trans (accumulate_none hnone)
  | sub k v hv => exact (exec_sub hvalid).trans (accumulate_some hv)
  | subOverflow k hnone => exact (exec_sub hvalid).trans (accumulate_none hnone)
  | store k => exact exec_store hvalid
  | load k => exact exec_load hvalid
  | jump k => exact exec_jump hvalid
  | jzTaken k hzero => rw [exec_jz (k := k) hvalid, if_pos hzero]
  | jzNotTaken k hzero => rw [exec_jz (k := k) hvalid, if_neg hzero]
  | jpTaken k hpos => rw [exec_jp (k := k) hvalid, if_pos hpos]
  | jpNotTaken k hpos => rw [exec_jp (k := k) hvalid, if_neg hpos]
  | input k v hv => exact exec_input hvalid hv
  | inputMalformed k hno => exact exec_input_malformed hvalid hno
  | output k => exact exec_output hvalid

theorem lp_eq (h : Effect s i t) : t.lp = s.lp := by
  cases h <;> rfl

theorem inp_eq (h : Effect s i t) : t.inp = s.inp := by
  cases h <;> rfl

theorem mem_get_eq (h : Effect s i t) (a : Nat) :
    (i = .store a ∨ i = .input a) ∨ t.mem.get a = s.mem.get a := by
  cases h with
  | store k =>
    by_cases ha : a = k
    · exact .inl (.inl (by rw [ha]))
    · exact .inr (Memory.get_set_other s.mem ha s.acc)
  | input k v _ =>
    by_cases ha : a = k
    · exact .inl (.inr (by rw [ha]))
    · exact .inr (Memory.get_set_other s.mem ha v)
  | _ => exact .inr rfl

theorem acc_eq (h : Effect s i t) (hadd : i.opcode ≠ .add) (hsub : i.opcode ≠ .sub)
    (hload : i.opcode ≠ .load) : t.acc = s.acc := by
  cases h with
  | add k v _ => exact absurd rfl hadd
  | sub k v _ => exact absurd rfl hsub
  | load k => exact absurd rfl hload
  | _ => rfl

theorem out_eq (h : Effect s i t) (houtput : i.opcode ≠ .output) : t.out = s.out := by
  cases h with
  | output k => exact absurd rfl houtput
  | _ => rfl

/-- IP moves when INPUT takes an integer, and stays in a fatal error and in every other instruction. -/
theorem ip_cases (h : Effect s i t) :
    (i.opcode = .input ∧ t.ip = s.ip + 1 ∧ t.phase = s.phase ∧ ∃ v, s.inNext = .int v) ∨
      (t.ip = s.ip ∧ (t.phase = .faulted ∨ i.opcode ≠ .input)) := by
  cases h with
  | input k v hv => exact .inl ⟨rfl, rfl, rfl, v, hv⟩
  | inputMalformed k _ => exact .inr ⟨rfl, .inl rfl⟩
  | _ => exact .inr ⟨rfl, .inr nofun⟩

/-- An instruction stops in a fatal error, or it leaves FAULT and, unless it is HALT, PHASE. -/
theorem phase_cases (h : Effect s i t) :
    (∃ c v, t = s.raise c v) ∨ (i.opcode = .halt ∧ t.fault = s.fault ∧ t.phase = .halted) ∨
      (i.opcode ≠ .halt ∧ t.fault = s.fault ∧ t.phase = s.phase) := by
  cases h with
  | halt k => exact .inr (.inl ⟨rfl, rfl, rfl⟩)
  | addOverflow k _ | subOverflow k _ | inputMalformed k _ => exact .inl ⟨_, _, rfl⟩
  | _ => exact .inr (.inr ⟨nofun, rfl, rfl⟩)

/-- An instruction that leaves PC at another address than its operand has not jumped (44_jumps R120). -/
theorem not_jumping (h : Effect s i t) (hpc : t.pc ≠ (i.operand : Int)) :
    i.opcode ≠ .jump ∧ (i.opcode = .jz → s.acc ≠ 0) ∧ (i.opcode = .jp → s.acc ≤ 0) := by
  cases h with
  | jump k | jzTaken k _ | jpTaken k _ => exact absurd rfl hpc
  | jzNotTaken k hzero => exact ⟨nofun, fun _ => hzero, nofun⟩
  | jpNotTaken k hpos => exact ⟨nofun, nofun, fun _ => not_lt.mp hpos⟩
  | _ => exact ⟨nofun, nofun, nofun⟩

/-- No instruction reads LP or OUT (10_state R20, R31). -/
theorem of_other_lp_out (h : Effect s i t) (l : Nat) (o : List Int) :
    ∃ o', Effect { s with lp := l, out := o } i { t with lp := l, out := o' } := by
  cases h with
  | halt k => exact ⟨o, .halt k⟩
  | add k v hv => exact ⟨o, .add k v hv⟩
  | addOverflow k hnone => exact ⟨o, .addOverflow k hnone⟩
  | sub k v hv => exact ⟨o, .sub k v hv⟩
  | subOverflow k hnone => exact ⟨o, .subOverflow k hnone⟩
  | store k => exact ⟨o, .store k⟩
  | load k => exact ⟨o, .load k⟩
  | jump k => exact ⟨o, .jump k⟩
  | jzTaken k hzero => exact ⟨o, .jzTaken k hzero⟩
  | jzNotTaken k hzero => exact ⟨o, .jzNotTaken k hzero⟩
  | jpTaken k hpos => exact ⟨o, .jpTaken k hpos⟩
  | jpNotTaken k hpos => exact ⟨o, .jpNotTaken k hpos⟩
  | input k v hv => exact ⟨o, .input k v hv⟩
  | inputMalformed k hno => exact ⟨o, .inputMalformed k hno⟩
  | output k => exact ⟨o ++ [s.mem.get k], .output k⟩

/-- HALT, JUMP, INPUT and OUTPUT do not read ACC (10_state R22). -/
theorem of_other_acc (h : Effect s i t) (a : Int)
    (hi : i.opcode = .halt ∨ i.opcode = .jump ∨ i.opcode = .input ∨ i.opcode = .output) :
    Effect { s with acc := a } i { t with acc := a } := by
  cases h with
  | halt k => exact .halt k
  | jump k => exact .jump k
  | input k v hv => exact .input k v hv
  | inputMalformed k hno => exact .inputMalformed k hno
  | output k => exact .output k
  | _ => simp [Instr.opcode] at hi

end Effect

end Sys2Proof.Machine
end

section
/-! SUPPORT. What a Loader step leaves unchanged, and which next state each of its effects is
(70_reset R182, R186). -/

namespace Sys2Proof.Machine.LoadEffect

variable {s t : State}

theorem inp_eq (h : LoadEffect s t) : t.inp = s.inp := by
  cases h <;> rfl

theorem acc_eq (h : LoadEffect s t) : t.acc = s.acc := by
  cases h <;> rfl

theorem out_eq (h : LoadEffect s t) : t.out = s.out := by
  cases h <;> rfl

theorem step_eq (h : LoadEffect s t) (hphase : s.phase = .load) : step s = .next t := by
  rw [step_load hphase]
  congr 1
  cases h with
  | malformed hno =>
    unfold loadStep
    split
    · rfl
    · rfl
    · rename_i v hv
      exact absurd hv (hno v)
  | sentinel hv => simp only [loadStep, hv, if_true]
  | overflow v hv hne hfull => simp only [loadStep, hv, if_neg hne, if_pos hfull]
  | stored v hv hne hroom => simp only [loadStep, hv, if_neg hne, if_neg hroom.not_ge]

end Sys2Proof.Machine.LoadEffect
end

section
/-! SUPPORT. The step in the statements' words: the instruction a cycle executes, if it comes to that,
and the next state (40_cycle R81 to R86). -/

namespace Sys2Proof.Machine

variable {s t : State}

theorem CycleEffect.inp_eq (h : CycleEffect s t) : t.inp = s.inp := by
  cases h with
  | pcOut | badOperand | badOpcode => rfl
  | instr _ _ _ _ _ he => exact he.inp_eq

theorem step_of_decode_ok {i : Instr} (hrun : s.phase = .run) (hpc : Valid s.cfg.n s.pc)
    (hd : decode s.cfg.n s.fetch = .ok i) : step s = exec i s := by
  rw [step_run hrun, cycle, if_pos hpc, hd]

theorem step_inp_eq (h : step s = .next t) : t.inp = s.inp := by
  obtain ⟨-, he⟩ | ⟨-, he⟩ := step_cases h
  · exact he.inp_eq
  · exact he.inp_eq

theorem Reachable.inp_eq {cfg : Config} {inp : List Token} (h : Reachable cfg inp s) : s.inp = inp :=
  reachable_induction (P := fun s => s.inp = inp) rfl
    (fun _ _ hs hst => (step_inp_eq hst).trans hs) h

theorem step_halted (h : s.phase = .halted) : step s = .fault .noStepAfterHalt := by
  simp [step, machineStep, h]

theorem step_faulted (h : s.phase = .faulted) : step s = .fault .noStepAfterFatalError := by
  simp [step, machineStep, h]

end Sys2Proof.Machine

namespace Sys2Proof.Claims

open Sys2Proof.Machine

variable {s t : State} {i : Instr}

theorem executes_unique {j : Instr} (hi : executes s i) (hj : executes s j) : i = j := by
  obtain ⟨-, -, hdi⟩ := hi
  obtain ⟨-, -, hdj⟩ := hj
  exact Except.ok.inj (hdi.symm.trans hdj)

theorem executes_of_word (hrun : s.phase = .run) (hpc : Valid s.cfg.n s.pc) (hwf : WellFormed s.cfg.n i)
    (hword : fetched s = encode i) : executes s i :=
  ⟨hrun, hpc, hword ▸ decode_encode hwf⟩

theorem valid_pc_of_executes (h : executes s i) : Valid s.cfg.n s.pc := by
  obtain ⟨-, hpc, -⟩ := h
  exact hpc

theorem wellFormed_of_executes (h : executes s i) : WellFormed s.cfg.n i := by
  obtain ⟨-, -, hd⟩ := h
  exact wellFormed_of_decode hd

theorem valid_operand_of_executes (h : executes s i) : Valid s.cfg.n (i.operand : Int) := by
  obtain ⟨-, hcell⟩ := wellFormed_of_executes h
  omega

theorem executes_make_of_opcode {o : Opcode} (h : executes s i) (ho : i.opcode = o) :
    executes s (Instr.make o i.operand) := Instr.eq_make ho ▸ h

theorem step_of_executes (h : executes s i) : step s = exec i s := by
  obtain ⟨hrun, hpc, hd⟩ := h
  exact step_of_decode_ok hrun hpc hd

theorem effect_of_executes (h : executes s i) (hstep : step s = .next t) : Effect s i t := by
  obtain ⟨u, hu, heffect⟩ := exec_effect i s (valid_operand_of_executes h)
  cases hu.symm.trans ((step_of_executes h).symm.trans hstep)
  exact heffect

/-- A cycle stops in a fatal error before it executes anything, or executes one instruction. -/
theorem step_run_cases (hrun : s.phase = .run) (hstep : step s = .next t) :
    ((∃ c v, t = s.raise c v) ∧ ∀ i, ¬ executes s i) ∨ ∃ i, executes s i ∧ Effect s i t := by
  by_cases hexecutes : ∃ i, executes s i
  · obtain ⟨i, hi⟩ := hexecutes
    exact .inr ⟨i, hi, effect_of_executes hi hstep⟩
  · refine .inl ⟨?_, not_exists.mp hexecutes⟩
    obtain ⟨hload, -⟩ | ⟨-, he⟩ := step_cases hstep
    · cases hrun.symm.trans hload
    · cases he with
      | pcOut _ | badOperand _ _ | badOpcode _ _ _ => exact ⟨_, _, rfl⟩
      | instr i _ hpc hd _ _ => exact absurd ⟨i, hrun, hpc, hd⟩ hexecutes

/-- A step that ends in FAULTED writes PHASE and FAULT and nothing else (60_exceptions R158). -/
theorem step_faulted_eq_raise (hstep : step s = .next t) (hfaulted : t.phase = .faulted) :
    ∃ c v, t = s.raise c v := by
  obtain ⟨hload, he⟩ | ⟨hrun, -⟩ := step_cases hstep
  · cases he with
    | malformed _ | overflow _ _ _ _ => exact ⟨_, _, rfl⟩
    | sentinel _ => cases hfaulted
    | stored v _ _ _ => cases hload.symm.trans hfaulted
  · obtain ⟨hraise, -⟩ | ⟨i, -, heffect⟩ := step_run_cases hrun hstep
    · exact hraise
    · obtain hraise | ⟨-, -, hhalted⟩ | ⟨-, -, hsame⟩ := heffect.phase_cases
      · exact hraise
      · cases hhalted.symm.trans hfaulted
      · cases hrun.symm.trans (hsame.symm.trans hfaulted)

/-- A Loader step stops in a fatal error, ends the load at the sentinel, or stores the integer read. -/
theorem step_load_cases (hload : s.phase = .load) (hstep : step s = .next t) : LoadEffect s t := by
  obtain ⟨-, he⟩ | ⟨hrun, -⟩ := step_cases hstep
  · exact he
  · cases hload.symm.trans hrun

end Sys2Proof.Claims
end

section
namespace Sys2Proof.Claims

open Sys2Proof.Machine

/-- Settles O11: the frame of the effect; the operand check writes no cell. -/
theorem memoryFrameOfEveryInstruction : Obligations.MemoryFrameOfEveryInstruction := by
  intro i s t hexec a
  obtain rfl | ⟨-, heffect⟩ := exec_cases hexec
  · exact .inr rfl
  · exact heffect.mem_get_eq a

/-- Settles O12: one frame lemma per register; the operand check writes PHASE and FAULT alone. -/
theorem registerFrameOfEveryInstruction : Obligations.RegisterFrameOfEveryInstruction := by
  intro i s t hexec
  obtain rfl | ⟨-, heffect⟩ := exec_cases hexec
  · exact ⟨rfl, rfl, rfl, fun _ => rfl, fun _ => rfl, fun _ _ _ => rfl, fun hphase => absurd rfl hphase⟩
  · refine ⟨heffect.cfg_eq, heffect.lp_eq, heffect.inp_eq, fun hinput => ?ip, heffect.out_eq,
      heffect.acc_eq, fun hphase => ?phase⟩
    case ip =>
      obtain ⟨hi, -⟩ | ⟨hip, -⟩ := heffect.ip_cases
      · exact absurd hi hinput
      · exact hip
    case phase =>
      obtain ⟨c, v, rfl⟩ | ⟨hhalt, hfault, hhalted⟩ | ⟨hother, hfault, hsame⟩ := heffect.phase_cases
      · exact absurd rfl hphase
      · exact ⟨hfault, fun _ => hhalted, fun hother => absurd hhalt hother⟩
      · exact ⟨hfault, fun hhalt => absurd hhalt hother, fun _ => hsame⟩

/-- Settles O13: the same effect from the state with another ACC; LOAD overwrites it. -/
theorem onlyTheTabledInstructionsUseAcc : Obligations.OnlyTheTabledInstructionsUseAcc := by
  refine ⟨fun i s t hexec hadd hsub hload => ?writes, fun i s t a hi hexec => ?reads,
    fun k s a hvalid => ?load, fun s t hload hstep => ?loader⟩
  case writes =>
    obtain rfl | ⟨-, heffect⟩ := exec_cases hexec
    · rfl
    · exact heffect.acc_eq hadd hsub hload
  case reads =>
    by_cases hvalid : Valid s.cfg.n (i.operand : Int)
    · obtain ⟨u, hu, heffect⟩ := exec_effect i s hvalid
      cases hu.symm.trans hexec
      exact (heffect.of_other_acc a hi).exec_eq hvalid
    · cases (exec_invalid i s hvalid).symm.trans hexec
      exact exec_invalid i { s with acc := a } hvalid
  case load => exact (exec_load (s := { s with acc := a }) hvalid).trans (exec_load hvalid).symm
  case loader => exact (step_load_cases hload hstep).acc_eq

/-- Settles O22: the driver's two checks pass, and it answers what `exec` does. -/
theorem stepRunsTheDecodedInstruction : Obligations.StepRunsTheDecodedInstruction :=
  fun _ _ hrun hpc hd => step_of_executes ⟨hrun, hpc, hd⟩

/-- Settles O28: the word is HALT with itself as operand. -/
theorem smallWordsHalt : Obligations.SmallWordsHalt := by
  intro s hrun hn hpc hlow hhigh
  obtain ⟨k, hk⟩ := Int.eq_ofNat_of_zero_le hlow
  have hexecutes : executes s (.halt k) :=
    ⟨hrun, hpc, (congrArg _ hk).trans (decode_natCast_eq_halt (by omega) (by omega))⟩
  exact (step_of_executes hexecutes).trans (exec_halt (valid_operand_of_executes hexecutes))

/-- Settles O1: HALT's one effect, the words of two digits, and for the empty program a Loader step on
the sentinel and a cycle on a cell that reads 0. -/
theorem haltStopsSuccessfully : Obligations.HaltStopsSuccessfully := by
  refine ⟨fun k s => ⟨exec_halt, exec_stopped_of_not_valid (.halt k) s⟩,
    fun n k hdigits hcell => decode_natCast_eq_halt hdigits hcell, fun n w hlow hhigh hout => ?words,
    fun cfg rest hcfg => ?empty⟩
  case words =>
    have hself := operandField_of_two_digits hlow hhigh
    rw [decode_of_not_valid (by rwa [hself]), hself]
  case empty =>
    obtain ⟨hn, -⟩ := hcfg
    let s := State.resetWith cfg (.int (-1) :: rest)
    have hnext : s.inNext = .int sentinel := inNext_eq_int_iff.mpr ⟨rfl, fits_neg_one cfg.xlen⟩
    have hexecutes : executes s.consume.enterRun (.halt 0) :=
      ⟨rfl, ⟨le_rfl, Int.ofNat_lt.mpr hn⟩, decode_natCast_eq_halt (by decide) hn⟩
    have hhalt := (step_of_executes hexecutes).trans (exec_halt (valid_operand_of_executes hexecutes))
    rw [steps_succ ((LoadEffect.sentinel hnext).step_eq rfl), steps_succ hhalt]
    rfl

/-- Settles O27: PC by effect; a fatal error is a state that differs in PHASE and FAULT alone. -/
theorem pcAfterEachCycle : Obligations.PcAfterEachCycle := by
  refine ⟨fun s t i hexecutes hstep hphase => ?table, fun s t hrun hstep hfaulted => ?fatal⟩
  case table =>
    cases effect_of_executes hexecutes hstep with
    | addOverflow k _ | subOverflow k _ | inputMalformed k _ => exact absurd rfl hphase
    | jzTaken k htaken | jpTaken k htaken => exact (if_pos htaken).symm
    | jzNotTaken k hnot | jpNotTaken k hnot => exact (if_neg hnot).symm
    | _ => rfl
  case fatal =>
    obtain ⟨c, v, rfl⟩ := step_faulted_eq_raise hstep hfaulted
    rfl

/-- Settles O24: PC has moved and not to the operand, which is an address, so it was advanced by an
instruction that does not jump; from an address it leaves Memory at N - 1 only. -/
theorem pcLeavesMemoryOnlyAtItsEnd : Obligations.PcLeavesMemoryOnlyAtItsEnd := by
  intro s t hinv hrun hstep htrun hout
  have hcfg := step_cfg_eq hstep
  obtain ⟨⟨c, v, rfl⟩, -⟩ | ⟨i, hexecutes, heffect⟩ := step_run_cases hrun hstep
  · cases htrun
  · have hoperand := valid_operand_of_executes hexecutes
    have hpc := valid_pc_of_executes hexecutes
    rw [hcfg] at hout
    have hjump : t.pc ≠ (i.operand : Int) := fun h => hout (h ▸ hoperand)
    have hadvance : t.pc = s.pc + 1 := by
      obtain hstay | hnext | hoperand := heffect.pc_cases
      · exact absurd (hstay ▸ hpc) hout
      · exact hnext
      · exact absurd hoperand hjump
    have hend : t.pc = (s.cfg.n : Int) := by omega
    have hhalt : i.opcode ≠ .halt := by
      obtain ⟨c, v, rfl⟩ | ⟨-, -, hhalted⟩ | ⟨hother, -, -⟩ := heffect.phase_cases
      · cases htrun
      · cases htrun.symm.trans hhalted
      · exact hother
    refine ⟨by omega, hend, ?_, i, hexecutes, hhalt, heffect.not_jumping hjump⟩
    rw [step_of_pc_not_valid htrun (hcfg ▸ hout), raise_eq_stopped, hend]

/-- Settles O29: `cycle` and `loadStep` are total, and the effect of a cycle says its PHASE. -/
theorem everyCycleEndsInOneOfThreeWays : Obligations.EveryCycleEndsInOneOfThreeWays := by
  refine ⟨fun s hrun => ?_, fun s hload => ⟨loadStep s, step_load hload⟩⟩
  obtain ⟨t, ht, -⟩ := cycle_effect s
  have hstep := (step_run hrun).trans ht
  refine ⟨t, hstep, ?_⟩
  obtain ⟨⟨c, v, rfl⟩, -⟩ | ⟨i, hexecutes, heffect⟩ := step_run_cases hrun hstep
  · exact .inr (.inr ⟨rfl, _, rfl⟩)
  · obtain ⟨c, v, rfl⟩ | ⟨hhalt, -, hhalted⟩ | ⟨-, -, hsame⟩ := heffect.phase_cases
    · exact .inr (.inr ⟨rfl, _, rfl⟩)
    · exact .inr (.inl ⟨hhalted, i.operand, executes_make_of_opcode hexecutes hhalt⟩)
    · exact .inl (hsame.trans hrun)

/-- Settles O30: the two terminal arms of the step. -/
theorem terminalPhasesTakeNoStep : Obligations.TerminalPhasesTakeNoStep :=
  fun _ => ⟨step_halted, step_faulted⟩

/-- Settles O31: the Loader's effects and the cycle's, read for PHASE. -/
theorem onlyTheseEventsChangeThePhase : Obligations.OnlyTheseEventsChangeThePhase := by
  intro s t hstep
  obtain ⟨hload, he⟩ | ⟨hrun, -⟩ := step_cases hstep
  · refine .inl ⟨hload, ?_⟩
    have hsentinel : s.inp[s.ip]? = some (.int (-1)) ↔ s.inNext = .int sentinel :=
      ⟨fun h => inNext_eq_int_iff.mpr ⟨h, fits_neg_one _⟩, fun h => (State.inNext_int h).1⟩
    rw [hsentinel]
    cases he with
    | malformed hno => exact ⟨.inr (.inr rfl), nofun, fun h => absurd h (hno _)⟩
    | sentinel hv => exact ⟨.inr (.inl rfl), fun _ => hv, fun _ => rfl⟩
    | overflow v hv hne _ =>
      exact ⟨.inr (.inr rfl), nofun, fun h => absurd (Token.int.inj (hv.symm.trans h)) hne⟩
    | stored v hv hne _ =>
      exact ⟨.inl hload, fun h => (nomatch hload.symm.trans h),
        fun h => absurd (Token.int.inj (hv.symm.trans h)) hne⟩
  · refine .inr ⟨hrun, ?_⟩
    obtain ⟨⟨c, v, rfl⟩, hnone⟩ | ⟨i, hexecutes, heffect⟩ := step_run_cases hrun hstep
    · exact ⟨.inr (.inr rfl), nofun, fun ⟨k, hk⟩ => absurd hk (hnone _)⟩
    · have hopcode : (∃ k, executes s (.halt k)) → i.opcode = .halt :=
        fun ⟨k, hk⟩ => executes_unique hexecutes hk ▸ rfl
      cases heffect with
      | halt k => exact ⟨.inr (.inl rfl), fun _ => ⟨k, hexecutes⟩, fun _ => rfl⟩
      | addOverflow k _ | subOverflow k _ | inputMalformed k _ =>
        exact ⟨.inr (.inr rfl), nofun, fun h => nomatch hopcode h⟩
      | _ => exact ⟨.inl hrun, fun h => (nomatch hrun.symm.trans h), fun h => nomatch hopcode h⟩

/-- Settles O32: a step that ends in FAULTED is a `raise`, and FAULTED takes no step. -/
theorem fatalErrorsArePrecise : Obligations.FatalErrorsArePrecise := by
  intro s t hstep hfaulted
  refine ⟨step_faulted_eq_raise hstep hfaulted, fun u hu => ?_⟩
  cases (step_faulted hfaulted).symm.trans hu

/-- Settles O33: the effects that raise, one by one. -/
theorem fatalErrorsFollowTheTable : Obligations.FatalErrorsFollowTheTable := by
  refine ⟨fun s t c v hstep hfaulted hfault => ?_, rfl, rfl, rfl, rfl, rfl, rfl⟩
  obtain ⟨hload, he⟩ | ⟨hrun, he⟩ := step_cases hstep
  · cases he with
    | malformed _ =>
      cases hfault
      exact ⟨rfl, .inl hload⟩
    | sentinel _ => cases hfaulted
    | overflow w hw _ _ =>
      cases hfault
      exact ⟨hload, (State.inNext_int hw).1⟩
    | stored w _ _ _ => cases hload.symm.trans hfaulted
  · cases he with
    | pcOut _ =>
      cases hfault
      exact ⟨hrun, rfl⟩
    | badOperand hpc _ | badOpcode hpc _ _ =>
      cases hfault
      exact ⟨hrun, hpc, rfl⟩
    | instr i _ hpc hd _ heffect =>
      have hexecutes : executes s i := ⟨hrun, hpc, hd⟩
      cases heffect with
      | halt _ => cases hfaulted
      | addOverflow k hnone =>
        cases hfault
        exact ⟨(alu_none hnone).1, k, .inl hexecutes, rfl⟩
      | subOverflow k hnone =>
        cases hfault
        exact ⟨(alu_none hnone).1, k, .inr hexecutes, rfl⟩
      | inputMalformed k _ =>
        cases hfault
        exact ⟨rfl, .inr ⟨k, hexecutes⟩⟩
      | _ => cases hrun.symm.trans hfaulted

/-- Settles O34: the four arms of the status; legal parameters have EXIT_FAIL non-zero. -/
theorem exitStatusFollowsThePhase : Obligations.ExitStatusFollowsThePhase := by
  refine fun s => ⟨fun h => ?_, fun h => ?_, fun hcfg => ?_, ?_⟩
  · simp [State.exitStatus, h]
  · simp [State.exitStatus, h]
  · obtain ⟨-, -, -, hfail⟩ := hcfg
    exact hfail
  · rintro (h | h) <;> simp [State.exitStatus, h]

/-- Settles O40: neither the Loader's effects nor the cycle's write the two fields. -/
theorem parametersAndStreamAreFixed : Obligations.ParametersAndStreamAreFixed :=
  fun _ _ hstep => ⟨step_cfg_eq hstep, step_inp_eq hstep⟩

/-- Settles O39: what every step keeps, along the run. -/
theorem reachablePcIsZeroToN : Obligations.ReachablePcIsZeroToN :=
  fun _ _ _ _ hreach => ⟨hreach.cfg_eq, hreach.inp_eq, hreach.pc_range⟩

/-- Settles O41: the sentinel and a stored integer in the Loader, INPUT in a cycle; a cycle executes one
instruction at most. -/
theorem inputPositionMovesOnlyOnATakenInteger : Obligations.InputPositionMovesOnlyOnATakenInteger := by
  intro s t hstep
  obtain ⟨hload, he⟩ | ⟨hrun, -⟩ := step_cases hstep
  · cases he with
    | malformed _ | overflow v _ _ _ => exact .inr ⟨rfl, .inl rfl⟩
    | sentinel hv => exact .inl ⟨rfl, nofun, ⟨_, inNext_eq_int_iff.mp hv⟩, .inl hload⟩
    | stored v hv _ _ =>
      exact .inl ⟨rfl, fun h => (nomatch hload.symm.trans h), ⟨v, inNext_eq_int_iff.mp hv⟩, .inl hload⟩
  · obtain ⟨⟨c, v, rfl⟩, -⟩ | ⟨i, hexecutes, heffect⟩ := step_run_cases hrun hstep
    · exact .inr ⟨rfl, .inl rfl⟩
    · obtain ⟨hinput, hip, hphase, v, hv⟩ | ⟨hip, hfaulted | hother⟩ := heffect.ip_cases
      · exact .inl ⟨hip, fun h => (nomatch hrun.symm.trans (hphase.symm.trans h)),
          ⟨v, inNext_eq_int_iff.mp hv⟩, .inr ⟨i.operand, executes_make_of_opcode hexecutes hinput⟩⟩
      · exact .inr ⟨hip, .inl hfaulted⟩
      · exact .inr ⟨hip, .inr ⟨hrun, fun k hk => hother (executes_unique hexecutes hk ▸ rfl)⟩⟩

/-- Settles O42: OUTPUT's one effect; nothing else writes OUT. -/
theorem outputGrowsByEachOutputExecuted : Obligations.OutputGrowsByEachOutputExecuted := by
  intro s t hstep
  refine ⟨fun k hexecutes => ?_, fun hnone => ?_⟩
  · cases effect_of_executes hexecutes hstep
    rfl
  · obtain ⟨-, he⟩ | ⟨hrun, -⟩ := step_cases hstep
    · exact he.out_eq
    · obtain ⟨⟨c, v, rfl⟩, -⟩ | ⟨i, hexecutes, heffect⟩ := step_run_cases hrun hstep
      · rfl
      · exact heffect.out_eq fun houtput => hnone _ (executes_make_of_opcode hexecutes houtput)

/-- Settles O43: no check of the cycle and no instruction looks at LP or OUT. -/
theorem programsCannotReadLoadPointerOrOutput :
    Obligations.ProgramsCannotReadLoadPointerOrOutput := by
  intro s t l o hrun hstep
  let s' : State := { s with lp := l, out := o }
  have hrun' : s'.phase = .run := hrun
  obtain ⟨hload, -⟩ | ⟨-, he⟩ := step_cases hstep
  · cases hrun.symm.trans hload
  · cases he with
    | pcOut hpc => exact ⟨o, step_of_pc_not_valid hrun' hpc⟩
    | badOperand hpc hout => exact ⟨o, step_of_decode_error hrun' hpc (decode_of_not_valid hout)⟩
    | badOpcode hpc hvalid hopcode =>
      have hd : decode s'.cfg.n s'.fetch = .error (.invalidInstruction (opcodeField s.fetch)) :=
        decode_eq_invalidInstruction_iff.mpr ⟨hvalid, hopcode, rfl⟩
      exact ⟨o, step_of_decode_error hrun' hpc hd⟩
    | instr i _ hpc hd _ heffect =>
      have hexecutes : executes s' i := ⟨hrun, hpc, hd⟩
      obtain ⟨o', heffect'⟩ := heffect.of_other_lp_out l o
      exact ⟨o', (step_of_executes hexecutes).trans
        (heffect'.exec_eq (valid_operand_of_executes hexecutes))⟩

/-- Settles O51: what a cycle stores to or jumps to is the operand of the instruction executed, which
has two digits. -/
theorem highCellsAreWrittenByTheLoaderOnly : Obligations.HighCellsAreWrittenByTheLoaderOnly := by
  intro s t hrun hstep
  obtain ⟨⟨c, v, rfl⟩, -⟩ | ⟨i, hexecutes, heffect⟩ := step_run_cases hrun hstep
  · exact ⟨fun _ _ => rfl, .inl rfl⟩
  · obtain ⟨hdigits, hcell⟩ := wellFormed_of_executes hexecutes
    refine ⟨fun a ha => ?_, ?_⟩
    · obtain (rfl | rfl) | hsame := heffect.mem_get_eq a
      · exact absurd ha hdigits.not_ge
      · exact absurd ha hdigits.not_ge
      · exact hsame
    · obtain hstay | hnext | hjump := heffect.pc_cases
      · exact .inl hstay
      · exact .inr (.inl hnext)
      · exact .inr (.inr (by omega))

end Sys2Proof.Claims
end

section
/-! SUPPORT. The Loader's runs: what holds while the Loader is still loading (70_reset R181 to R187),
and that integers other than the sentinel are loaded one by one as long as there is room. -/

namespace Sys2Proof.Machine

/-- One more step at the end of a run. -/
theorem steps_succ_last {k : Nat} {s t u : State} (h : steps k s = .next t) (hstep : step t = .next u) :
    steps (k + 1) s = .next u := by
  induction k generalizing s with
  | zero =>
    cases h
    exact steps_succ hstep
  | succ k ih =>
    cases hs : step s with
    | next v =>
      rw [steps_succ hs] at h ⊢
      exact ih h
    | fault r => simp [steps, hs] at h
    | refused r => simp [steps, hs] at h

/-- While loading: Memory holds the integers read, one per token, and nothing else has been written. -/
structure LoadProgress (cfg : Config) (inp : List Token) (s : State) : Prop where
  cfg_eq : s.cfg = cfg
  inp_eq : s.inp = inp
  phase_eq : s.phase = .load
  fault_eq : s.fault = none
  acc_eq : s.acc = 0
  pc_eq : s.pc = 0
  out_eq : s.out = []
  ip_eq : s.ip = s.lp
  lp_le : s.lp ≤ cfg.n
  memWf : s.mem.wf = true
  loaded : ∀ i : Nat, i < s.lp → inp[i]? = some (.int (s.mem.get i)) ∧ s.mem.get i ≠ -1
  above : ∀ i : Nat, s.lp ≤ i → s.mem.get i = 0

namespace LoadProgress

variable {cfg : Config} {inp rest : List Token} {s t : State} {vs : List Int}

theorem of_resetWith (cfg : Config) (inp : List Token) :
    LoadProgress cfg inp (State.resetWith cfg inp) where
  cfg_eq := rfl
  inp_eq := rfl
  phase_eq := rfl
  fault_eq := rfl
  acc_eq := rfl
  pc_eq := rfl
  out_eq := rfl
  ip_eq := rfl
  lp_le := Nat.zero_le _
  memWf := rfl
  loaded := by simp
  above := fun i _ => State.resetWith_mem_get cfg inp i

theorem store (h : LoadProgress cfg inp s) {v : Int} (hv : s.inNext = .int v) (hne : v ≠ sentinel)
    (hroom : s.lp < s.cfg.n) : LoadProgress cfg inp ((s.memWrite s.lp v).bumpLp).consume :=
  { h with
    ip_eq := congrArg (· + 1) h.ip_eq
    lp_le := h.cfg_eq ▸ hroom
    memWf := Memory.wf_set h.memWf
    loaded := by
      intro i hi
      obtain hlt | rfl := Nat.lt_succ_iff_lt_or_eq.mp hi
      · have hold : (s.mem.set s.lp v).get i = s.mem.get i := Memory.get_set_other s.mem hlt.ne v
        exact hold.symm ▸ h.loaded i hlt
      · have hnew : (s.mem.set s.lp v).get s.lp = v := Memory.get_set_same h.memWf s.lp v
        obtain ⟨htoken, -⟩ := State.inNext_int hv
        rw [h.inp_eq, h.ip_eq] at htoken
        exact hnew.symm ▸ ⟨htoken, hne⟩
    above := by
      intro i hi
      exact (Memory.get_set_other s.mem (Nat.lt_of_succ_le hi).ne' v).trans
        (h.above i (Nat.le_of_succ_le hi)) }

/-- The one step of the Loader that stays in PHASE = LOAD is the store of an integer. -/
theorem step (h : LoadProgress cfg inp s) (hstep : step s = .next t) (hload : t.phase = .load) :
    LoadProgress cfg inp t := by
  obtain ⟨-, he⟩ | ⟨hrun, -⟩ := step_cases hstep
  · cases he with
    | malformed _ | sentinel _ | overflow _ _ _ _ => cases hload
    | stored v hv hne hroom => exact h.store hv hne hroom
  · cases hrun.symm.trans h.phase_eq

theorem mem_get_eq (h : LoadProgress cfg (vs.map Token.int ++ rest) s) (hlp : s.lp = vs.length)
    (i : Nat) : s.mem.get i = vs.getD i 0 := by
  obtain hlt | hge := lt_or_ge i vs.length
  · obtain ⟨htoken, -⟩ := h.loaded i (hlp ▸ hlt)
    rw [List.getElem?_append_left (by simpa using hlt), List.getElem?_map,
      List.getElem?_eq_getElem hlt] at htoken
    rw [List.getD_eq_getElem _ _ hlt]
    exact (Token.int.inj (Option.some.inj htoken)).symm
  · rw [List.getD_eq_default _ _ hge]
    exact h.above i (hlp ▸ hge)

theorem next_token_eq (h : LoadProgress cfg (vs.map Token.int ++ rest) s) (hlp : s.lp = vs.length) :
    s.inp[s.ip]? = rest.head? := by
  rw [h.inp_eq, h.ip_eq, hlp, List.getElem?_append_right (by simp)]
  simp [List.head?_eq_getElem?]

end LoadProgress

end Sys2Proof.Machine

namespace Sys2Proof.Claims

open Sys2Proof.Machine

variable {cfg : Config} {vs : List Int}

/-- A state that has reached PHASE = LOAD has been there since reset. -/
theorem loadProgress_of_reachable {inp : List Token} {s : State} (h : Reachable cfg inp s)
    (hload : s.phase = .load) : LoadProgress cfg inp s := by
  induction h with
  | reset => exact .of_resetWith cfg inp
  | step s t _ hstep ih =>
    obtain ⟨hs, -⟩ | ⟨hrun, -⟩ := step_cases hstep
    · exact (ih hs).step hstep hload
    · obtain ⟨⟨c, v, rfl⟩, -⟩ | ⟨i, -, heffect⟩ := step_run_cases hrun hstep
      · cases hload
      · obtain ⟨c, v, rfl⟩ | ⟨-, -, hhalted⟩ | ⟨-, -, hsame⟩ := heffect.phase_cases
        · cases hload
        · cases hhalted.symm.trans hload
        · cases hrun.symm.trans (hsame.symm.trans hload)

theorem loads_first_integers (hlen : vs.length ≤ cfg.n) (hvs : ∀ v ∈ vs, v ≠ -1 ∧ Fits cfg.xlen v)
    (rest : List Token) {k : Nat} (hk : k ≤ vs.length) : ∃ t, steps k (loading cfg vs rest) = .next t ∧
      LoadProgress cfg (vs.map Token.int ++ rest) t ∧ t.lp = k := by
  induction k with
  | zero => exact ⟨_, rfl, .of_resetWith _ _, rfl⟩
  | succ k ih =>
    obtain ⟨t, ht, hprogress, hlp⟩ := ih (Nat.le_of_succ_le hk)
    obtain ⟨hne, hfits⟩ := hvs vs[k] (List.getElem_mem hk)
    have htoken : t.inp[t.ip]? = some (.int vs[k]) := by
      rw [hprogress.inp_eq, hprogress.ip_eq, hlp, List.getElem?_append_left (by simpa using hk),
        List.getElem?_map, List.getElem?_eq_getElem hk]
      rfl
    have hv : t.inNext = .int vs[k] := inNext_eq_int_iff.mpr ⟨htoken, hprogress.cfg_eq.symm ▸ hfits⟩
    have hroom : t.lp < t.cfg.n := by
      rw [hlp, hprogress.cfg_eq]
      exact Nat.lt_of_lt_of_le hk hlen
    have hstep := (LoadEffect.stored _ hv hne hroom).step_eq hprogress.phase_eq
    exact ⟨_, steps_succ_last ht hstep, hprogress.store hv hne hroom, congrArg (· + 1) hlp⟩

/-- The state after the integers, from which the next token decides (70_reset R182). -/
theorem loads_integers (hlen : vs.length ≤ cfg.n) (hvs : ∀ v ∈ vs, v ≠ -1 ∧ Fits cfg.xlen v)
    (rest : List Token) : ∃ t, steps vs.length (loading cfg vs rest) = .next t ∧
      LoadProgress cfg (vs.map Token.int ++ rest) t ∧ t.lp = vs.length :=
  loads_first_integers hlen hvs rest le_rfl

end Sys2Proof.Claims
end

section
namespace Sys2Proof.Claims

open Sys2Proof.Machine

/-- Settles O44: the four effects of a Loader step, each under its own condition. -/
theorem loaderStep : Obligations.LoaderStep := by
  intro s hload
  refine ⟨fun hno => ?_, fun hnext => ?_, fun v hnext hne hfull => ?_, fun v hnext hne hroom => ?_⟩
  · exact (LoadEffect.malformed (inNext_ne_int_of_not_nextIs hno)).step_eq hload
  · exact (LoadEffect.sentinel (inNext_eq_int_iff.mpr hnext)).step_eq hload
  · exact (LoadEffect.overflow v (inNext_eq_int_iff.mpr hnext) hne hfull).step_eq hload
  · exact (LoadEffect.stored v (inNext_eq_int_iff.mpr hnext) hne hroom).step_eq hload

/-- Settles O45: after the integers the sentinel ends the load, whether or not a cell is left. -/
theorem normalLoadLeavesTheLaunchMemory : Obligations.NormalLoadLeavesTheLaunchMemory := by
  intro cfg vs rest _ hlen hvs
  obtain ⟨t, ht, hprogress, hlp⟩ := loads_integers hlen hvs (.int (-1) :: rest)
  have hnext : t.inNext = .int sentinel :=
    inNext_eq_int_iff.mpr ⟨hprogress.next_token_eq hlp, fits_neg_one _⟩
  have hstep := (LoadEffect.sentinel hnext).step_eq hprogress.phase_eq
  exact ⟨_, steps_succ_last ht hstep, hprogress.mem_get_eq hlp, hlp,
    congrArg (· + 1) (hprogress.ip_eq.trans hlp), rfl, hprogress.fault_eq, hprogress.acc_eq, hprogress.pc_eq,
    hprogress.out_eq, hprogress.cfg_eq⟩

/-- Settles O46: with LP = N a further integer is the overflow; the sentinel is a normal load, O45. -/
theorem oneIntegerTooManyIsMemoryOverflow : Obligations.OneIntegerTooManyIsMemoryOverflow := by
  intro cfg vs v rest hcfg hlen hvs hne hfits
  obtain ⟨t, ht, hprogress, hlp⟩ := loads_integers hlen.le hvs (.int v :: rest)
  obtain ⟨u, hu, hmem, -, -, hrun, hfault, -⟩ :=
    normalLoadLeavesTheLaunchMemory cfg vs rest hcfg hlen.le hvs
  have hnext : t.inNext = .int v :=
    inNext_eq_int_iff.mpr ⟨hprogress.next_token_eq hlp, hprogress.cfg_eq.symm ▸ hfits⟩
  have hfull : t.cfg.n ≤ t.lp := by rw [hprogress.cfg_eq, hlp, hlen]
  have hstep := (LoadEffect.overflow v hnext hne hfull).step_eq hprogress.phase_eq
  rw [← hlen]
  exact ⟨_, steps_succ_last ht hstep, rfl, rfl, hprogress.mem_get_eq hlp, hlp, hprogress.ip_eq.trans hlp,
    u, hu, hrun, hfault, hmem⟩

/-- Settles O47: the token after the integers is no integer, which is tested before there being room. -/
theorem malformedLoadKeepsWhatWasLoaded : Obligations.MalformedLoadKeepsWhatWasLoaded := by
  intro cfg vs rest _ hlen hvs hrest
  obtain ⟨t, ht, hprogress, hlp⟩ := loads_integers hlen hvs rest
  have hno : ∀ v, ¬ nextIs t v :=
    fun v ⟨htoken, _⟩ => hrest v ((hprogress.next_token_eq hlp).symm.trans htoken)
  have hstep := (LoadEffect.malformed (inNext_ne_int_of_not_nextIs hno)).step_eq hprogress.phase_eq
  exact ⟨_, steps_succ_last ht hstep, rfl, rfl, hprogress.mem_get_eq hlp, hlp, hprogress.ip_eq.trans hlp⟩

/-- Settles O48: a reachable loading state has made progress by stores alone. -/
theorem loadingStatesHoldTheIntegersRead : Obligations.LoadingStatesHoldTheIntegersRead := by
  intro cfg inp s _ hreach hload
  have h := loadProgress_of_reachable hreach hload
  exact ⟨h.ip_eq, h.lp_le, h.acc_eq, h.pc_eq, h.out_eq, h.loaded, h.above⟩

end Sys2Proof.Claims
end

section
/-! SUPPORT. What one cycle leaves for the next: a cycle at the next address, and the cell it fetches
(20_memory R51). -/

namespace Sys2Proof.Claims

open Sys2Proof.Machine

variable {s t : State} {i : Instr}

theorem executes_after_advance (hrun : t.phase = .run) (hcfg : t.cfg = s.cfg) (hpc : t.pc = s.pc + 1)
    (hvalid : Valid s.cfg.n (s.pc + 1)) (hwf : WellFormed s.cfg.n i)
    (hword : t.mem.get (s.pc + 1).toNat = encode i) : executes t i :=
  executes_of_word hrun (by rwa [hcfg, hpc]) (hcfg ▸ hwf) (by rw [fetched, hpc, hword])

/-- A value found in the cell after PC is what the next cycle fetches. -/
theorem next_cycle_runs_cell {k : Nat} {v : Int} (hrun : t.phase = .run) (hcfg : t.cfg = s.cfg)
    (hpc : t.pc = s.pc + 1) (hk : k < s.cfg.n) (hcell : t.mem.get k = v) (hnext : (k : Int) = s.pc + 1) :
    fetched t = v ∧ ∀ i, decode s.cfg.n v = .ok i → step t = exec i t := by
  have haddr : t.pc = (k : Int) := hpc.trans hnext.symm
  have hfetch : fetched t = v := by rw [fetched, haddr, Int.toNat_natCast, hcell]
  refine ⟨hfetch, fun i hd => step_of_executes ⟨hrun, ?_, ?_⟩⟩
  · rw [hcfg, haddr]
    omega
  · rwa [hcfg, hfetch]

theorem step_store {a : Nat} (h : executes s (.store a)) :
    step s = .next ((s.memWrite a s.acc).sequence none) :=
  (step_of_executes h).trans (exec_store (valid_operand_of_executes h))

theorem step_loadInstr {a : Nat} (h : executes s (.load a)) :
    step s = .next ((s.setAcc (s.mem.get a)).sequence none) :=
  (step_of_executes h).trans (exec_load (valid_operand_of_executes h))

theorem step_input {a : Nat} {v : Int} (h : executes s (.input a)) (hv : s.inNext = .int v) :
    step s = .next (((s.memWrite a v).consume).sequence none) :=
  (step_of_executes h).trans (exec_input (valid_operand_of_executes h) hv)

end Sys2Proof.Claims
end

section
namespace Sys2Proof.Claims

open Sys2Proof.Machine

/-- Settles O49: the LOAD's own cell is not the one stored to, so the second cycle still executes it. -/
theorem storeLoadRoundTripAndLoadIdempotence : Obligations.StoreLoadRoundTripAndLoadIdempotence := by
  refine ⟨fun s a hinv hrun hpc hpc' hdigits hcell hstore hload hother => ?roundTrip,
    fun s a hrun hpc hpc' hdigits hcell hload hload' => ?idempotence⟩
  case roundTrip =>
    have hfirst : executes s (.store a) := executes_of_word hrun hpc ⟨hdigits, hcell⟩ hstore
    have hword : (s.mem.set a s.acc).get (s.pc + 1).toNat = encode (.load a) :=
      (Memory.get_set_other s.mem (by omega) s.acc).trans hload
    have hsecond : executes ((s.memWrite a s.acc).sequence none) (.load a) :=
      executes_after_advance (s := s) hrun rfl rfl hpc' ⟨hdigits, hcell⟩ hword
    exact ⟨_, _, step_store hfirst, step_loadInstr hsecond, Memory.get_set_same hinv.memWf a s.acc,
      Int.add_assoc s.pc 1 1⟩
  case idempotence =>
    have hfirst : executes s (.load a) := executes_of_word hrun hpc ⟨hdigits, hcell⟩ hload
    have hsecond : executes ((s.setAcc (s.mem.get a)).sequence none) (.load a) :=
      executes_after_advance (s := s) hrun rfl rfl hpc' ⟨hdigits, hcell⟩ hload'
    exact ⟨_, _, step_loadInstr hfirst, step_loadInstr hsecond, rfl, rfl⟩

/-- Settles O50: the write is in Memory when the cycle ends, and the next fetch reads Memory. -/
theorem writesAreSeenByTheNextFetch : Obligations.WritesAreSeenByTheNextFetch := by
  intro s k hinv hrun hpc hdigits hcell
  refine ⟨fun hword => ?store, fun v hnext hword => ?input⟩
  case store =>
    have hexecutes : executes s (.store k) := executes_of_word hrun hpc ⟨hdigits, hcell⟩ hword
    have hwritten := Memory.get_set_same hinv.memWf k s.acc
    exact ⟨_, step_store hexecutes, hrun, rfl, hwritten,
      next_cycle_runs_cell hrun rfl rfl hcell hwritten⟩
  case input =>
    have hexecutes : executes s (.input k) := executes_of_word hrun hpc ⟨hdigits, hcell⟩ hword
    have hwritten := Memory.get_set_same hinv.memWf k v
    exact ⟨_, step_input hexecutes (inNext_eq_int_iff.mpr hnext), hrun, rfl, hwritten,
      next_cycle_runs_cell hrun rfl rfl hcell hwritten⟩

end Sys2Proof.Claims
end
